-- ==== Sys2Proof/Word.lean ====
section
/-! DEFINITION. The two word types of decimal64_encoder: the 64-bit value and the text byte
(spec/00_scope.md rule R6, spec/20_memory.md rule R21). -/

namespace Sys2Proof

/-- A 64-bit port value: a decimal64 word, a binary64 word or an unsigned coefficient
(`VAL_W` = 64, rule R6); bit i is bit i of the value (rule R23). -/
abbrev Word := BitVec 64

/-- A text byte, read as an ASCII code (rules R21 and R40). -/
abbrev Byte := BitVec 8

end Sys2Proof
end

