-- ==== Sys2Proof/Config.lean ====
section
/-! DEFINITION. The named parameters the spec leaves to the model (spec/00_scope.md rules R6 and R7,
spec/92_eei_decisions.md "Open parameters"). Their default values are in Machine/Constants.lean.
The machine carries one `Params` in its state and no step changes it, so a statement about every
state is a statement about every value of the three parameters (log entry 2). -/

namespace Sys2Proof

/-- `P_LARGE_EXP`: how the biased exponent of the large-coefficient form is assembled
(rules R7 and R33). -/
inductive LargeExp where
  /-- bits 60 to 59 as high bits, bits 51 to 44 as low bits -/
  | split
  /-- the ten contiguous bits 60 to 51 -/
  | contig
  deriving DecidableEq, Repr

/-- `P_ALIGN_ROUND`: how the adder's alignment drops a digit (rules R7 and R62). -/
inductive AlignRound where
  /-- `c div 10` -/
  | truncate
  /-- `(c + 5) div 10` -/
  | halfUp
  deriving DecidableEq, Repr

/-- The three parameters of one instance of the block. -/
structure Params where
  /-- `P_LARGE_EXP` -/
  largeExp : LargeExp
  /-- `P_ALIGN_ROUND` -/
  alignRound : AlignRound
  /-- `TXT_IN_MAX`: capacity of the text operand in bytes; `none` is "unbounded"
  (92_eei_decisions.md, "any natural number, or unbounded"). -/
  txtInMax : Option Nat
  deriving DecidableEq, Repr

end Sys2Proof
end

