-- ==== Sys2Proof/Machine/Constants.lean ====
section
/-! DEFINITION. The numeric constants of spec/00_scope.md rules R5 and R6, the default parameters of
rule R7, and the text bound of rule R117 (b). -/

namespace Sys2Proof.Machine

/-- `BIAS` = 398 (R5). -/
def bias : Int := 398

/-- `EMIN` = -398, the least unbiased exponent (R5, R8). -/
def eMin : Int := -398

/-- `EMAX` = 369, the greatest unbiased exponent (R5, R8). -/
def eMax : Int := 369

/-- `MAXCOEF` = 2^53 - 1 (R5). -/
def maxCoef : Nat := 9007199254740991

/-- `LARGE_BIT` = 2^53 (R5). -/
def largeBit : Nat := 9007199254740992

/-- `DIGIT_CAP` = 16 (R5). -/
def digitCap : Nat := 16

/-- `DIV_SCALE` = 10^15 (R5). -/
def divScale : Nat := 1000000000000000

/-- `FD_DIGITS` = 15 (R5). -/
def fdDigits : Int := 15

/-- `TXT_OUT_MAX` = 24 bytes (R6). -/
abbrev txtOutMax : Nat := 24

/-- `NAN64` (R6, R15). -/
def nan64 : Word := 0x7C00000000000000

/-- `PINF64` (R6, R15). -/
def pinf64 : Word := 0x7800000000000000

/-- `NINF64` (R6, R15). -/
def ninf64 : Word := 0xF800000000000000

/-- `F64_QNAN`, the binary64 NaN that TO_DOUBLE emits (R6). -/
def f64QNan : Word := 0x7FF8000000000000

/-- The binary64 pattern of +infinity (R39, R80). -/
def f64Inf : Word := 0x7FF0000000000000

/-- The defaults of rules R6 and R7: `SPLIT`, `TRUNCATE`, 255. -/
def defaultParams : Params := ⟨.split, .truncate, some 255⟩

/-- Rule R117 (b): `txt_len` is at most `TXT_IN_MAX`; an unbounded capacity admits every length. -/
def admitsLength (p : Params) (n : Nat) : Bool :=
  match p.txtInMax with
  | none => true
  | some m => decide (n ≤ m)

end Sys2Proof.Machine
end

