-- ==== Sys2Proof/Syntax.lean ====
section
/-! DEFINITION. The request record, which is the block's one "instruction format" REQ
(spec/10_state.md rule R11, spec/30_encoding.md rule R41), and the ten operations with the operands
each one reads (rules R42 and R45). -/

namespace Sys2Proof

/-- The request record (rule R11). The host may put any value in any field. -/
structure Request where
  /-- operation number, 4 bits; 10 to 15 are reserved (R43) -/
  op : BitVec 4
  /-- first operand -/
  a : Word
  /-- second operand -/
  b : Word
  /-- ENCODE's sign operand: `false` positive, `true` negative -/
  sgn : Bool
  /-- ENCODE's exponent operand, two's complement -/
  exp : BitVec 32
  /-- number of bytes of `txt` that are valid; a natural number, since `TXT_IN_MAX` is a parameter
  (8 bits at its default, log entry 5) -/
  txtLen : Nat
  /-- text operand, `txt[0]` first; a byte past the end of the list is 0x00 (log entry 7) -/
  txt : List Byte
  deriving DecidableEq, Repr

/-- The ten operations of rule R42, each with exactly the operands rule R45 says it reads. -/
inductive Instr where
  /-- ENCODE (op 0): `sgn`, `a` as unsigned coefficient, `exp` -/
  | encode (sgn : Bool) (coef : Word) (exp : BitVec 32)
  /-- DECODE (op 1) -/
  | decode (a : Word)
  /-- ADD (op 2) -/
  | add (a b : Word)
  /-- SUB (op 3) -/
  | sub (a b : Word)
  /-- MUL (op 4) -/
  | mul (a b : Word)
  /-- DIV (op 5) -/
  | div (a b : Word)
  /-- TO_DOUBLE (op 6) -/
  | toDouble (a : Word)
  /-- FROM_DOUBLE (op 7): a binary64 word -/
  | fromDouble (u : Word)
  /-- FROM_STRING (op 8): the bytes `txt[0 .. txt_len - 1]` -/
  | fromString (text : List Byte)
  /-- TO_STRING (op 9) -/
  | toString (a : Word)
  deriving DecidableEq, Repr

/-- Why a request does not decode. -/
inductive DecodeError where
  /-- `op` is 10 to 15: reserved, no meaning (R43) -/
  | reservedOp (op : BitVec 4)
  deriving DecidableEq, Repr

end Sys2Proof
end

