-- ==== Sys2Proof/Machine/State.lean ====
section
/-! DEFINITION. The machine's state, the response record, and the reasons a step can stop.

The spec gives the block no architectural state (spec/10_state.md rules R10 and R17). `State` holds
the transient records at its interface, the reset input and the model's parameters, so that one step
can take a request and answer it (log entry 1). -/

namespace Sys2Proof.Machine

/-- The response record (rule R12). -/
structure Response where
  /-- main result -/
  r : Word
  /-- DECODE: the sign -/
  rSgn : Bool
  /-- DECODE: the unbiased exponent, two's complement -/
  rExp : BitVec 32
  /-- DECODE: the operand is NaN or Infinity -/
  rNonfinite : Bool
  /-- TO_STRING: number of valid bytes of `rtxt` -/
  rtxtLen : BitVec 5
  /-- TO_STRING: the text, `rtxt[0]` first -/
  rtxt : Vector Byte txtOutMax
  /-- status of the operation (R16) -/
  flags : BitVec 8
  deriving DecidableEq, Repr

/-- What one instance of the block, its parameters and its interface hold. -/
structure State where
  /-- the parameters of this instance; no step changes them (log entry 2) -/
  params : Params
  /-- the reset input is asserted and not yet acted on (R120, log entry 4) -/
  resetAsserted : Bool
  /-- requests taken and not yet answered, oldest first (R27) -/
  requests : List Request
  /-- responses sent, oldest first; the block never reads them (R17, R27) -/
  responses : List Response
  deriving DecidableEq, Repr

/-- There is no fault (rule R110: "it has no fault outcome and no stuck state"), so this type has no
constructor. -/
inductive Fault where
  deriving DecidableEq, Repr

/-- Why a request has no response (rule R117). A refusal is safe: a run that contains one says
nothing. -/
inductive Refusal where
  /-- exec's arm of an instruction that has no meaning yet; no arm uses it. Safe. -/
  | notModelled (mnemonic : String)
  /-- raised by the fetch of a request whose `op` is 10 to 15 (R43, R117 (a)). Safe. -/
  | reservedOp (op : BitVec 4)
  /-- raised by the fetch of a request whose `txt_len` is above `TXT_IN_MAX` (R117 (b)). Safe. -/
  | textTooLong (txtLen : Nat)
  deriving DecidableEq, Repr

/-- Right after reset: the interface has taken no request and owes no response (R120), and the
parameters have their default values (R6, R7). -/
def State.reset : State :=
  { params := defaultParams, resetAsserted := false, requests := [], responses := [] }

end Sys2Proof.Machine
end

