-- ==== Sys2Proof/Machine/Flags.lean ====
section
/-! DEFINITION. The flags output (spec/10_state.md rule R16, spec/60_exceptions.md rule R113) and the
response of an operation before it produces anything (rule R14). There is no other flag
computation: no condition is ever indicated. -/

namespace Sys2Proof.Machine

/-- `FLAGS_NONE` = 0x00, the flags of every response (R16). -/
def flagsNone : BitVec 8 := 0x00

/-- Every field zero, flags `FLAGS_NONE`: what an operation's produced fields are written over
(R14). -/
def Response.blank : Response :=
  { r := 0, rSgn := false, rExp := 0, rNonfinite := false, rtxtLen := 0,
    rtxt := Vector.replicate txtOutMax 0, flags := flagsNone }

/-- The response of an operation that produces `r` alone. -/
def Response.value (v : Word) : Response :=
  { Response.blank with r := v }

end Sys2Proof.Machine
end

