-- ==== Sys2Proof/Machine/Operands.lean ====
section
/-! DEFINITION. How an operand's bits are read: the decimal64 word (spec/30_encoding.md rules R30 to
R36 and R46, spec/40_codec.md rules R50 and R51), the binary64 word (rule R39) and the text
alphabet (rule R40). -/

namespace Sys2Proof.Machine

/-- `v[hi:lo]`, the unsigned integer made of bits hi down to lo (00_scope.md, Notation). -/
def slice (v : Word) (hi lo : Nat) : Nat :=
  (v.extractLsb hi lo).toNat

/-- `v[63]`, the sign bit of a decimal64 or binary64 word (R32, R33, R35, R39). -/
def signBit (v : Word) : Bool :=
  v.getLsbD 63

/-! ## The decimal64 word -/

/-- The three classes of rule R31. -/
inductive NumClass where
  | finite
  | inf
  | nan
  deriving DecidableEq, Repr

/-- `Classify(v)` (R50): bits 62 to 58 are tested first (R31, R112 item 5). -/
def classify (v : Word) : NumClass :=
  if slice v 62 58 = 0b11111 then .nan
  else if slice v 62 58 = 0b11110 then .inf
  else .finite

/-- `IsFinite(v)` (R50). -/
def isFinite (v : Word) : Bool :=
  decide (classify v = .finite)

/-- Bits 62 and 61 are both 1: with a finite class, the large-coefficient form (R31). -/
def isLargeForm (v : Word) : Bool :=
  decide (slice v 62 61 = 0b11)

/-- The triple (s, c, e) of a finite value: sign, coefficient, unbiased exponent. -/
structure Unpacked where
  s : Bool
  c : Nat
  e : Int
  deriving DecidableEq, Repr

/-- The biased exponent of the large-coefficient form (R33). In the `SPLIT` reading the two fields
are disjoint, so the rule's `|` is written as a sum. -/
def largeBiased (p : Params) (v : Word) : Nat :=
  match p.largeExp with
  | .split => slice v 60 59 * 2 ^ 8 + slice v 51 44
  | .contig => slice v 60 51

/-- `Unpack(v)` (R51), which the rule defines on finite words. -/
def unpack (p : Params) (v : Word) : Unpacked :=
  if isLargeForm v then
    ⟨signBit v, largeBit + slice v 50 0, (largeBiased p v : Int) - bias⟩
  else
    ⟨signBit v, slice v 52 0, (slice v 62 53 : Int) - bias⟩

/-! ## The binary64 word -/

/-- A non-negative exact rational, numerator over a positive denominator. -/
structure Frac where
  num : Nat
  den : Nat
  deriving DecidableEq, Repr

/-- The biased exponent field E = `u[62:52]` (R39). -/
def f64Exp (u : Word) : Nat := slice u 62 52

/-- The fraction field F = `u[51:0]` (R39). -/
def f64Fraction (u : Word) : Nat := slice u 51 0

/-- |`F64Val(u)`| of a finite pattern as an exact rational (R39): F × 2^-1074 when E = 0, else
(2^52 + F) × 2^(E - 1075). -/
def f64Abs (u : Word) : Frac :=
  if f64Exp u = 0 then ⟨f64Fraction u, 2 ^ 1074⟩
  else if 1075 ≤ f64Exp u then ⟨(2 ^ 52 + f64Fraction u) * 2 ^ (f64Exp u - 1075), 1⟩
  else ⟨2 ^ 52 + f64Fraction u, 2 ^ (1075 - f64Exp u)⟩

/-! ## The text alphabet -/

/-- `0` to `9` (R40). -/
def isDigit (ch : Byte) : Bool :=
  decide (0x30 ≤ ch.toNat) && decide (ch.toNat ≤ 0x39)

/-- The value of a digit, code - 0x30 (R40). -/
def digitVal (ch : Byte) : Nat := ch.toNat - 0x30

/-- `E` or `e` (R40). -/
def isExpMarker (ch : Byte) : Bool := ch == 0x45 || ch == 0x65

/-- `lower` maps `A`-`Z` to `a`-`z` and leaves other bytes alone (R91). -/
def lower (ch : Byte) : Byte :=
  if 0x41 ≤ ch.toNat ∧ ch.toNat ≤ 0x5A then ch + 0x20 else ch

end Sys2Proof.Machine
end

