-- ==== Sys2Proof/Machine/Ops.lean ====
section
/-! DEFINITION. The shared operations: sending a response, reset, and the internal functions every
operation is built from: `Pack`, `Inf64`, `Encode` (spec/40_codec.md rules R52 and R53), `Negate`
and `Align` (spec/41_arithmetic.md rules R61 and R62).

A rule's `while` loop is written as recursion on a bound that the loop cannot outlast; the laws in
Laws/ show that each one satisfies the loop as the rule writes it (log entry 13). There is no
exception to take and none to return from (R110, R115). -/

namespace Sys2Proof.Machine

/-! ## The interface -/

/-- Send one response, after all earlier ones (R27). -/
def State.respond (s : State) (rsp : Response) : State :=
  { s with responses := s.responses ++ [rsp] }

/-- The host issues a request: it is taken behind the ones already taken (R27). -/
def State.issue (s : State) (req : Request) : State :=
  { s with requests := s.requests ++ [req] }

/-- Reset acts: requests taken and not yet answered are dropped without a response, and nothing else
changes (R120). -/
def State.actOnReset (s : State) : State :=
  { s with resetAsserted := false, requests := [] }

/-! ## Pack, Inf64 -/

/-- `clamp(e, -398, 369)` (R9, R53 steps 1 and 4). -/
def clampExp (e : Int) : Int :=
  if e < eMin then eMin else if e > eMax then eMax else e

/-- `Pack(s, c, e)` (R52): the standard-form word `(s << 63) | ((e + 398) << 53) | c`, the fields
being disjoint on the rule's domain. -/
def pack (s : Bool) (c : Nat) (e : Int) : Word :=
  BitVec.ofNat 64 ((if s then 2 ^ 63 else 0) + (e + bias).toNat * 2 ^ 53 + c)

/-- `Inf64(s)` (R52). -/
def inf64 (s : Bool) : Word :=
  if s then ninf64 else pinf64

/-! ## Encode -/

/-- One rounding of `Encode` step 2: round half up by one digit. -/
def roundDigit (c : Nat) : Nat := (c + 5) / 10

/-- `Encode` step 2 (R53) for at most `fuel` turns; `none` is saturation. -/
def roundLoop : Nat → Nat → Int → Option (Nat × Int)
  | 0, c, e => some (c, e)
  | fuel + 1, c, e =>
    if c ≤ maxCoef then some (c, e)
    else if e + 1 > eMax then none
    else roundLoop fuel (roundDigit c) (e + 1)

/-- `Encode` step 3 (R53) for at most `fuel` turns. -/
def truncLoop : Nat → Nat → Int → Nat × Int
  | 0, c, e => (c, e)
  | fuel + 1, c, e =>
    if e < eMin ∧ c ≠ 0 then truncLoop fuel (c / 10) (e + 1) else (c, e)

/-- `Encode(s, c, e)` (R53) on every coefficient and exponent. Each turn of either loop at least
halves the coefficient, so one turn per binary digit is enough. -/
def encode64 (s : Bool) (c : Nat) (e : Int) : Word :=
  if c = 0 then pack s 0 (clampExp e)
  else
    match roundLoop (c.log2 + 1) c e with
    | none => inf64 s
    | some (c₁, e₁) =>
      let t := truncLoop (c₁.log2 + 1) c₁ e₁
      pack s t.1 (clampExp t.2)

/-! ## Negate, Align -/

/-- `Negate(v)` (R61): the sign bit is inverted whatever the class of the word. -/
def negate (v : Word) : Word :=
  v ^^^ (1#64 <<< 63)

/-- `Down(c)` (R62): drop one digit as `P_ALIGN_ROUND` says. -/
def down (p : Params) (c : Nat) : Nat :=
  match p.alignRound with
  | .truncate => c / 10
  | .halfUp => (c + 5) / 10

/-- The loop of `Align` (R62) for at most `fuel` turns: the result is (ca', cb', e). -/
def alignLoop (p : Params) : Nat → Nat → Int → Nat → Int → Nat × Nat × Int
  | 0, ca, ea, cb, _ => (ca, cb, ea)
  | fuel + 1, ca, ea, cb, eb =>
    if ea = eb then (ca, cb, ea)
    else if ea > eb then
      if ca * 10 ≤ maxCoef then alignLoop p fuel (ca * 10) (ea - 1) cb eb
      else alignLoop p fuel ca ea (down p cb) (eb + 1)
    else
      if cb * 10 ≤ maxCoef then alignLoop p fuel ca ea (cb * 10) (eb - 1)
      else alignLoop p fuel (down p ca) (ea + 1) cb eb

/-- `Align(ca, ea, cb, eb)` (R62). Every turn brings the exponents one closer. -/
def align (p : Params) (ca : Nat) (ea : Int) (cb : Nat) (eb : Int) : Nat × Nat × Int :=
  alignLoop p (ea - eb).natAbs ca ea cb eb

end Sys2Proof.Machine
end

