-- ==== Sys2Proof/Machine/Arithmetic.lean ====
section
/-! DEFINITION. The arithmetic engine: ADD, SUB, MUL, DIV (spec/41_arithmetic.md rules R60 to R66). -/

namespace Sys2Proof.Machine

/-- Rule R60: the first step of all four operations. A non-finite operand gives `NAN64`; otherwise
`f` works on the two unpacked operands. -/
def onFinite (p : Params) (a b : Word) (f : Unpacked → Unpacked → Word) : Word :=
  if isFinite a && isFinite b then f (unpack p a) (unpack p b) else nan64

/-- ADD step 3 (R63): combine the aligned coefficients; an exact cancellation is +0. -/
def combine (sa : Bool) (ca : Nat) (sb : Bool) (cb : Nat) : Bool × Nat :=
  if sa = sb then (sa, ca + cb)
  else if ca > cb then (sa, ca - cb)
  else if cb > ca then (sb, cb - ca)
  else (false, 0)

/-- ADD on two unpacked operands (R63 steps 2 to 4). -/
def addFinite (p : Params) (x y : Unpacked) : Word :=
  let t := align p x.c x.e y.c y.e
  let m := combine x.s t.1 y.s t.2.1
  encode64 m.1 m.2 t.2.2

/-- The result of ADD (R63). -/
def addResult (p : Params) (a b : Word) : Word :=
  onFinite p a b (addFinite p)

/-- The result of SUB (R64): ADD with the second operand's sign bit inverted. -/
def subResult (p : Params) (a b : Word) : Word :=
  addResult p a (negate b)

/-- MUL on two unpacked operands (R65). -/
def mulFinite (x y : Unpacked) : Word :=
  encode64 (x.s ^^ y.s) (x.c * y.c) (x.e + y.e)

/-- The result of MUL (R65). -/
def mulResult (p : Params) (a b : Word) : Word :=
  onFinite p a b mulFinite

/-- DIV's scaling loop (R66) for at most `fuel` turns: multiply the numerator by ten while it is
below `lim` and the exponent is above -398. -/
def scaleLoop (lim : Nat) : Nat → Nat → Int → Nat × Int
  | 0, n, e => (n, e)
  | fuel + 1, n, e =>
    if n < lim ∧ e > eMin then scaleLoop lim fuel (n * 10) (e - 1) else (n, e)

/-- DIV on two unpacked operands (R66): a zero divisor gives `NAN64`; otherwise scale, divide,
truncating, and encode. Every turn lowers the exponent by one, so it cannot pass -398. -/
def divFinite (x y : Unpacked) : Word :=
  if y.c = 0 then nan64
  else
    let e := x.e - y.e
    let t := scaleLoop (y.c * divScale) (e - eMin).toNat x.c e
    encode64 (x.s ^^ y.s) (t.1 / y.c) t.2

/-- The result of DIV (R66): the non-finite test comes before the zero-divisor test (R112). -/
def divResult (p : Params) (a b : Word) : Word :=
  onFinite p a b divFinite

/-- ADD (R63). -/
def execAdd (a b : Word) (s : State) : Host.Outcome State Fault Refusal :=
  .next (s.respond (Response.value (addResult s.params a b)))

/-- SUB (R64). -/
def execSub (a b : Word) (s : State) : Host.Outcome State Fault Refusal :=
  .next (s.respond (Response.value (subResult s.params a b)))

/-- MUL (R65). -/
def execMul (a b : Word) (s : State) : Host.Outcome State Fault Refusal :=
  .next (s.respond (Response.value (mulResult s.params a b)))

/-- DIV (R66). -/
def execDiv (a b : Word) (s : State) : Host.Outcome State Fault Refusal :=
  .next (s.respond (Response.value (divResult s.params a b)))

end Sys2Proof.Machine
end

