-- ==== Sys2Proof/Machine/BinaryBridge.lean ====
section
/-! DEFINITION. The binary-float bridge: the binary64 helpers of spec/42_binary_bridge.md rule R80,
TO_DOUBLE (R81) and FROM_DOUBLE (R82), on exact rationals. -/

namespace Sys2Proof.Machine

/-! ## Exact rationals -/

/-- q × 10^e. -/
def Frac.scale10 (q : Frac) (e : Int) : Frac :=
  if 0 ≤ e then ⟨q.num * 10 ^ e.toNat, q.den⟩ else ⟨q.num, q.den * 10 ^ (-e).toNat⟩

/-- `floor(q + 1/2)`: the nearest integer, ties away from zero. -/
def Frac.roundHalfUp (q : Frac) : Nat :=
  (2 * q.num + q.den) / (2 * q.den)

/-- The nearest integer, ties to even. -/
def Frac.roundHalfEven (q : Frac) : Nat :=
  let d := q.num / q.den
  let twice := 2 * (q.num % q.den)
  if twice < q.den then d
  else if q.den < twice then d + 1
  else d + d % 2

/-! ## Binary64 helpers (R80) -/

/-- `RN64(q)` (R80). The threshold (2^53 - 1/2) × 2^971 and everything above it give +infinity.
Below it, x = q / 2^-1074 counts units of the least subnormal; the unit in the last place is
2^b of them, b = floor(log2 x) - 52 or 0; the pattern with that many units is b × 2^52 plus the
significand, rounded to nearest even. In the subnormal range b is 0 and the pattern is the
significand; a significand rounded up to 2^53 carries into the exponent field. -/
def rn64 (q : Frac) : Word :=
  if (2 ^ 54 - 1) * 2 ^ 971 * q.den ≤ 2 * q.num then f64Inf
  else
    let b := (q.num * 2 ^ 1074 / q.den).log2 - 52
    BitVec.ofNat 64 (b * 2 ^ 52 + Frac.roundHalfEven ⟨q.num * 2 ^ 1074, q.den * 2 ^ b⟩)

/-- `U64ToF64(c)` (R80). -/
def u64ToF64 (c : Nat) : Word := rn64 ⟨c, 1⟩

/-- `P10(e)` (R80): the correctly rounded power of ten. -/
def p10 (e : Int) : Word := rn64 (Frac.scale10 ⟨1, 1⟩ e)

/-- `FMul(x, y)` on non-negative patterns that are no NaN (R80), which leaves out zero times
infinity (log entry 17). -/
def fmul (x y : Word) : Word :=
  if x = f64Inf ∨ y = f64Inf then f64Inf
  else rn64 ⟨(f64Abs x).num * (f64Abs y).num, (f64Abs x).den * (f64Abs y).den⟩

/-- A non-negative binary64 pattern given a sign: `(s << 63) | m`. -/
def withSign (s : Bool) (m : Word) : Word :=
  (if s then 1#64 <<< 63 else 0) ||| m

/-! ## TO_DOUBLE -/

/-- The result of TO_DOUBLE (R81). -/
def toDoubleResult (p : Params) (v : Word) : Word :=
  match classify v with
  | .nan => f64QNan
  | .inf => withSign (signBit v) f64Inf
  | .finite =>
    let u := unpack p v
    if u.c = 0 then withSign u.s 0 else withSign u.s (fmul (u64ToF64 u.c) (p10 u.e))

/-! ## FROM_DOUBLE -/

/-- The number of decimal digits of n less one, for at most `fuel` divisions. -/
def ilog10Loop : Nat → Nat → Nat
  | 0, _ => 0
  | fuel + 1, n => if n < 10 then 0 else ilog10Loop fuel (n / 10) + 1

/-- `floor(log10 n)` of a positive natural number. -/
def ilog10 (n : Nat) : Nat := ilog10Loop n.log2 n

/-- The integer k with 10^k ≤ x < 10^(k+1) (R82), for 10^-400 ≤ x: the exact floor(log10) of
x × 10^400, less 400. Every nonzero finite binary64 value is at least 2^-1074 > 10^-400. -/
def decimalExponent (x : Frac) : Int :=
  (ilog10 (x.num * 10 ^ 400 / x.den) : Int) - 400

/-- The result of FROM_DOUBLE (R82). -/
def fromDoubleResult (u : Word) : Word :=
  if f64Exp u = 0x7FF ∧ f64Fraction u ≠ 0 then nan64
  else if f64Exp u = 0x7FF then inf64 (signBit u)
  else if f64Exp u = 0 ∧ f64Fraction u = 0 then encode64 (signBit u) 0 0
  else
    let x := f64Abs u
    let e := decimalExponent x - (fdDigits - 1)
    encode64 (signBit u) (Frac.roundHalfUp (x.scale10 (-e))) e

/-- TO_DOUBLE (R81). -/
def execToDouble (a : Word) (s : State) : Host.Outcome State Fault Refusal :=
  .next (s.respond (Response.value (toDoubleResult s.params a)))

/-- FROM_DOUBLE (R82). -/
def execFromDouble (u : Word) (s : State) : Host.Outcome State Fault Refusal :=
  .next (s.respond (Response.value (fromDoubleResult u)))

end Sys2Proof.Machine
end

