-- ==== Sys2Proof/Machine/Codec.lean ====
section
/-! DEFINITION. The codec: ENCODE and DECODE (spec/40_codec.md rules R55 and R56). -/

namespace Sys2Proof.Machine

/-- DECODE's response (R55). -/
def decodeResponse (p : Params) (v : Word) : Response :=
  if isFinite v then
    let u := unpack p v
    { Response.blank with
      rNonfinite := false, rSgn := u.s, r := BitVec.ofNat 64 u.c, rExp := BitVec.ofInt 32 u.e }
  else
    { Response.blank with rNonfinite := true, rSgn := signBit v }

/-- ENCODE (R56): the coefficient is unsigned, the exponent is `sext_32(exp)`. -/
def execEncode (sgn : Bool) (coef : Word) (exp : BitVec 32) (s : State) :
    Host.Outcome State Fault Refusal :=
  .next (s.respond (Response.value (encode64 sgn coef.toNat exp.toInt)))

/-- DECODE (R55). -/
def execDecode (a : Word) (s : State) : Host.Outcome State Fault Refusal :=
  .next (s.respond (decodeResponse s.params a))

end Sys2Proof.Machine
end

