-- ==== Sys2Proof/Machine/TextBridge.lean ====
section
/-! DEFINITION. The text bridge: the parser of FROM_STRING (spec/43_text_bridge.md rules R90 to R96)
and the formatter of TO_STRING (rules R97 to R99). -/

namespace Sys2Proof.Machine

/-! ## The parser -/

/-- The lexer states of the scan proper (R90, R92). The first state, SIGN, is `takeSign` and the
token test below. -/
inductive ScanMode where
  | int
  | frac
  | esign
  | edig
  deriving DecidableEq, Repr

/-- The parser's working values (R90), but for the sign of the number. -/
structure Parser where
  mode : ScanMode
  /-- coefficient -/
  c : Nat
  /-- significant digits taken so far -/
  nd : Nat
  /-- exponent from the digit positions -/
  e : Int
  /-- the written exponent is negative -/
  eneg : Bool
  /-- magnitude of the written exponent -/
  ev : Nat
  deriving DecidableEq, Repr

/-- All working values start at 0, in state INT (R90, R91). -/
def Parser.init : Parser := ⟨.int, 0, 0, 0, false, 0⟩

/-- State SIGN (R91): at most one sign character, at index 0 only. -/
def takeSign : List Byte → Bool × List Byte
  | [] => (false, [])
  | ch :: rest =>
    if ch = 0x2B then (false, rest)
    else if ch = 0x2D then (true, rest)
    else (false, ch :: rest)

/-- The next three letters, in lower case, are x, y, z (R91). -/
def isToken (x y z : Byte) : List Byte → Bool
  | t₀ :: t₁ :: t₂ :: _ => lower t₀ == x && lower t₁ == y && lower t₂ == z
  | _ => false

/-- `TakeDigit(d, fractional)` (R93). -/
def takeDigit (d : Nat) (fractional : Bool) (q : Parser) : Parser :=
  if q.nd < digitCap then
    let c := q.c * 10 + d
    { q with
      c := c
      e := if fractional then q.e - 1 else q.e
      nd := if c ≠ 0 then q.nd + 1 else q.nd }
  else if fractional then q
  else { q with e := q.e + 1 }

/-- One byte of the scan that is not the terminator (R92); "skip" leaves everything alone. -/
def scanByte (q : Parser) (ch : Byte) : Parser :=
  match q.mode with
  | .int =>
    if isDigit ch then takeDigit (digitVal ch) false q
    else if ch = 0x2E then { q with mode := .frac }
    else if isExpMarker ch then { q with mode := .esign }
    else q
  | .frac =>
    if isDigit ch then takeDigit (digitVal ch) true q
    else if isExpMarker ch then { q with mode := .esign }
    else q
  | .esign =>
    if isDigit ch then { q with ev := digitVal ch, mode := .edig }
    else if ch = 0x2B then { q with mode := .edig }
    else if ch = 0x2D then { q with eneg := true, mode := .edig }
    else q
  | .edig =>
    if isDigit ch then { q with ev := q.ev * 10 + digitVal ch }
    else q

/-- The scan proper (R92): a NUL or the end of the text ends it. -/
def scan (q : Parser) : List Byte → Parser
  | [] => q
  | ch :: rest => if ch = 0x00 then q else scan (scanByte q ch) rest

/-- `etot` (R95). -/
def Parser.etot (q : Parser) : Int :=
  q.e + (if q.eneg then -(q.ev : Int) else q.ev)

/-- The result of FROM_STRING on the text t (R91, R92, R95). -/
def parseText (t : List Byte) : Word :=
  let st := takeSign t
  if isToken 0x6E 0x61 0x6E st.2 then nan64
  else if isToken 0x69 0x6E 0x66 st.2 then inf64 st.1
  else
    let q := scan Parser.init st.2
    encode64 st.1 q.c q.etot

/-! ## The formatter -/

/-- The ASCII code of a decimal digit. -/
def digitCode (d : Nat) : Byte := BitVec.ofNat 8 (0x30 + d)

/-- The decimal digits of n, most significant first, for at most `fuel` divisions. -/
def digitsLoop : Nat → Nat → List Byte
  | 0, n => [digitCode n]
  | fuel + 1, n =>
    if n < 10 then [digitCode n] else digitsLoop fuel (n / 10) ++ [digitCode (n % 10)]

/-- `Digits(n)` (R98) for n > 0; the one digit 0 for n = 0. -/
def digits (n : Nat) : List Byte := digitsLoop n.log2 n

/-- A digit string with all trailing `0` characters removed (R98). -/
def stripZeros (d : List Byte) : List Byte :=
  (d.reverse.dropWhile (· == 0x30)).reverse

/-- `+` or `-`. -/
def signCode (neg : Bool) : Byte := if neg then 0x2D else 0x2B

/-- The mantissa (R98): the first digit, then a point and the rest if there are more. -/
def mantissaText : List Byte → List Byte
  | [] => []
  | [d] => [d]
  | d :: ds => d :: 0x2E :: ds

/-- The text of a finite nonzero value (R98): the digit count is taken before stripping. -/
def finiteText (u : Unpacked) : List Byte :=
  let d := digits u.c
  let adj : Int := u.e + ((d.length : Int) - 1)
  signCode u.s :: mantissaText (stripZeros d) ++ 0x45 :: signCode (decide (adj < 0)) :: digits adj.natAbs

/-- The text of any word (R97, R98). -/
def formatText (p : Params) (v : Word) : List Byte :=
  match classify v with
  | .nan => [0x2B, 0x4E, 0x61, 0x4E]
  | .inf => [signCode (signBit v), 0x49, 0x6E, 0x66]
  | .finite =>
    let u := unpack p v
    if u.c = 0 then [signCode u.s, 0x30, 0x45, 0x2B, 0x30] else finiteText u

/-- A response that carries a text (R99): its length, its bytes, and 0x00 up to 24. -/
def textResponse (t : List Byte) : Response :=
  { Response.blank with
    rtxtLen := BitVec.ofNat 5 t.length
    rtxt := Vector.ofFn fun i => t.getD i.val 0x00 }

/-- FROM_STRING (R96). -/
def execFromString (text : List Byte) (s : State) : Host.Outcome State Fault Refusal :=
  .next (s.respond (Response.value (parseText text)))

/-- TO_STRING (R99). -/
def execToString (a : Word) (s : State) : Host.Outcome State Fault Refusal :=
  .next (s.respond (textResponse (formatText s.params a)))

end Sys2Proof.Machine
end

