-- ==== Sys2Proof/Machine/Dispatch.lean ====
section
/-! DEFINITION. One arm per operation of spec/30_encoding.md rule R42. -/

namespace Sys2Proof.Machine

def exec (i : Instr) (s : State) : Host.Outcome State Fault Refusal :=
  match i with
  | .encode sgn coef exp => Sys2Proof.Machine.execEncode sgn coef exp s
  | .decode a => Sys2Proof.Machine.execDecode a s
  | .add a b => Sys2Proof.Machine.execAdd a b s
  | .sub a b => Sys2Proof.Machine.execSub a b s
  | .mul a b => Sys2Proof.Machine.execMul a b s
  | .div a b => Sys2Proof.Machine.execDiv a b s
  | .toDouble a => Sys2Proof.Machine.execToDouble a s
  | .fromDouble u => Sys2Proof.Machine.execFromDouble u s
  | .fromString text => Sys2Proof.Machine.execFromString text s
  | .toString a => Sys2Proof.Machine.execToString a s

end Sys2Proof.Machine
end

