-- ==== Sys2Proof/WellFormed.lean ====
section
/-! DEFINITION. Which requests and instructions are well formed: the host's obligations of
spec/60_exceptions.md rule R117, as decidable checks. Every operand field of an instruction has the
width of its port by its type, so the text length is the one check an instruction needs. -/

namespace Sys2Proof

open Machine

/-- An instruction is well formed when its text, if it has one, fits in `TXT_IN_MAX` bytes. -/
def Instr.wf (p : Params) : Instr → Bool
  | .encode _ _ _ => true
  | .decode _ => true
  | .add _ _ => true
  | .sub _ _ => true
  | .mul _ _ => true
  | .div _ _ => true
  | .toDouble _ => true
  | .fromDouble _ => true
  | .fromString text => admitsLength p text.length
  | .toString _ => true

/-- A request the host may issue (rule R117): (a) `op` is 0 to 9, (b) `txt_len` ≤ `TXT_IN_MAX`. -/
def Request.wf (p : Params) (req : Request) : Bool :=
  decide (req.op.toNat ≤ 9) && admitsLength p req.txtLen

end Sys2Proof
end

