-- ==== Sys2Proof/Decode.lean ====
section
/-! DEFINITION. From a request record to an operation with its operands, and back: the operation map
of spec/30_encoding.md rule R42 and the "reads" column of rule R45. `decode` is total; a reserved
`op` is rejected by name (R43). A field the operation does not read is dropped here, once (R13). -/

namespace Sys2Proof

/-- The valid bytes `txt[0 .. txt_len - 1]` (R13, R21). The list stands for the whole byte array: a
byte past its end is 0x00 (log entry 7). -/
def Request.text (req : Request) : List Byte :=
  req.txt.take req.txtLen ++ List.replicate (req.txtLen - req.txt.length) 0

/-- Rule R42 with the operands of rule R45. -/
def decode (req : Request) : Except DecodeError Instr :=
  match req.op.toNat with
  | 0 => .ok (.encode req.sgn req.a req.exp)
  | 1 => .ok (.decode req.a)
  | 2 => .ok (.add req.a req.b)
  | 3 => .ok (.sub req.a req.b)
  | 4 => .ok (.mul req.a req.b)
  | 5 => .ok (.div req.a req.b)
  | 6 => .ok (.toDouble req.a)
  | 7 => .ok (.fromDouble req.a)
  | 8 => .ok (.fromString req.text)
  | 9 => .ok (.toString req.a)
  | _ => .error (.reservedOp req.op)

/-- A request with every operand field zero. -/
def Request.ofOp (op : BitVec 4) : Request :=
  ⟨op, 0, 0, false, 0, 0, []⟩

/-- The request that carries an instruction, every field it does not read being zero. -/
def encode : Instr → Request
  | .encode sgn coef exp => { Request.ofOp 0 with sgn := sgn, a := coef, exp := exp }
  | .decode a => { Request.ofOp 1 with a := a }
  | .add a b => { Request.ofOp 2 with a := a, b := b }
  | .sub a b => { Request.ofOp 3 with a := a, b := b }
  | .mul a b => { Request.ofOp 4 with a := a, b := b }
  | .div a b => { Request.ofOp 5 with a := a, b := b }
  | .toDouble a => { Request.ofOp 6 with a := a }
  | .fromDouble u => { Request.ofOp 7 with a := u }
  | .fromString text => { Request.ofOp 8 with txtLen := text.length, txt := text }
  | .toString a => { Request.ofOp 9 with a := a }

/-- The request whose `op` is a word of spec/opcode_table.json. The table's mask is 0xF: bits 3 to 0
of the word are `op`, and no other bit belongs to any field. Every operand field is zero
(log entry 8). -/
def requestOfTableWord (w : Nat) : Request :=
  Request.ofOp (BitVec.ofNat 4 w)

/-- The instruction the decoder reads from a word of the opcode table. -/
def decodeTableWord (_nbits w : Nat) : Option Instr :=
  match decode (requestOfTableWord w) with
  | .ok i => some i
  | .error _ => none

end Sys2Proof
end

