-- ==== Sys2Proof/Machine/Fetch.lean ====
section
/-! DEFINITION. What the block does with the request it takes next: there is no instruction memory
(spec/20_memory.md rule R29), so "fetch" is the decoding of the oldest request, with the refusals of
spec/60_exceptions.md rule R117. -/

namespace Sys2Proof.Machine

/-- The operation a request asks for, or the refusal of a request that has no meaning: a reserved
`op` (R43, R117 (a)), or a `txt_len` above `TXT_IN_MAX` whatever the operation (R117 (b), log
entry 6). -/
def fetch (p : Params) (req : Request) : Except Refusal Instr :=
  match decode req with
  | .error (.reservedOp op) => .error (.reservedOp op)
  | .ok i => if admitsLength p req.txtLen then .ok i else .error (.textTooLong req.txtLen)

end Sys2Proof.Machine
end

