-- ==== Sys2Proof/Machine/Step.lean ====
section
/-! DEFINITION. One step of the block: act on reset if it is asserted; else answer the oldest request
taken; with no request, wait (spec/20_memory.md rules R25, R27, R28; spec/60_exceptions.md rules
R110 and R117; spec/70_reset_and_hazards.md rule R120). -/

namespace Sys2Proof.Machine

/-- One transaction is one step (R2, R10). A refusal is the one other outcome (R110). Reset is looked
at first, so an illegal request not yet answered when reset is asserted is dropped with the others
(R120) and not refused (R117): DESIGN CHOICE, log entry 4. -/
def step (s : State) : Host.Outcome State Fault Refusal :=
  if s.resetAsserted then .next s.actOnReset
  else
    match s.requests with
    | [] => .next s
    | req :: rest =>
      match fetch s.params req with
      | .error r => .refused r
      | .ok i => exec i { s with requests := rest }

/-- The request of an opcode-table word stands first among those taken, and reset is not asserted:
the very next step answers it (log entry 9). -/
def State.withFetchWord (s : State) (_nbits w : Nat) : State :=
  { s with resetAsserted := false, requests := requestOfTableWord w :: s.requests }

end Sys2Proof.Machine
end

