-- ==== Sys2Proof/Safety.lean ====
section
/-! DEFINITION. The terms in which statements about the block are made: requests the host may issue
(spec/60_exceptions.md rule R117), fields an operation uses (spec/30_encoding.md rule R45), words
and responses the block may send (rules R14, R16, R22, R38), and the numbers words denote. -/

namespace Sys2Proof.Machine

/-! ## Runs -/

/-- Every request taken meets the host's obligations, so no step is refused (R117). -/
def State.Admissible (s : State) : Prop :=
  ∀ req ∈ s.requests, req.wf s.params = true

/-- Two requests for the same operation hold the same values in every field that rule R45 says the
operation reads. -/
def UsedFieldsAgree (q r : Request) : Prop :=
  q.op = r.op ∧
  (q.op = 0 → q.sgn = r.sgn ∧ q.a = r.a ∧ q.exp = r.exp) ∧
  (q.op = 1 ∨ q.op = 6 ∨ q.op = 7 ∨ q.op = 9 → q.a = r.a) ∧
  (q.op = 2 ∨ q.op = 3 ∨ q.op = 4 ∨ q.op = 5 → q.a = r.a ∧ q.b = r.b) ∧
  (q.op = 8 → q.txtLen = r.txtLen ∧ ∀ i < q.txtLen, q.txt.getD i 0x00 = r.txt.getD i 0x00)

/-! ## Words and responses -/

/-- A finite word in the standard form (R32). -/
def StandardFinite (v : Word) : Prop :=
  isFinite v = true ∧ isLargeForm v = false

/-- What may leave the block as a decimal64 result (R38). -/
def EmittedDecimal (v : Word) : Prop :=
  StandardFinite v ∨ v = 0x7C00000000000000 ∨ v = 0x7800000000000000 ∨ v = 0xF800000000000000

/-- The operations whose `r` is a decimal64 word (R45). -/
def producesDecimal : Instr → Bool
  | .encode _ _ _ => true
  | .decode _ => false
  | .add _ _ => true
  | .sub _ _ => true
  | .mul _ _ => true
  | .div _ _ => true
  | .toDouble _ => false
  | .fromDouble _ => true
  | .fromString _ => true
  | .toString _ => false

/-- The characters the formatter emits (R40). -/
def isFormatterByte (ch : Byte) : Bool :=
  isDigit ch || ch == 0x2B || ch == 0x2D || ch == 0x2E || ch == 0x45 ||
    ch == 0x4E || ch == 0x61 || ch == 0x49 || ch == 0x6E || ch == 0x66

/-- What every response satisfies, whichever operation sent it. -/
structure Response.WellFormed (rsp : Response) : Prop where
  /-- R16 -/
  flags_none : rsp.flags = 0x00
  /-- R55: an exponent is in the format's range -/
  exponent_range : -398 ≤ rsp.rExp.toInt ∧ rsp.rExp.toInt ≤ 369
  /-- R55: a non-finite operand has no coefficient and no exponent -/
  nonfinite_zero : rsp.rNonfinite = true → rsp.r = 0 ∧ rsp.rExp = 0
  /-- R12, R14, R100: no text, or a text of 4 to 24 characters and no `r` -/
  text_length : rsp.rtxtLen = 0 ∨
    (4 ≤ rsp.rtxtLen.toNat ∧ rsp.rtxtLen.toNat ≤ 24 ∧ rsp.r = 0)
  /-- R40: the valid bytes are the formatter's characters -/
  text_ascii : ∀ (i : Nat) (h : i < txtOutMax), i < rsp.rtxtLen.toNat →
    isFormatterByte rsp.rtxt[i] = true
  /-- R14, R22: the other bytes are 0x00 -/
  text_padding : ∀ (i : Nat) (h : i < txtOutMax), rsp.rtxtLen.toNat ≤ i → rsp.rtxt[i] = 0x00

/-- The invariant of the machine: every response it has sent is well formed. -/
def State.Inv (s : State) : Prop :=
  ∀ rsp ∈ s.responses, rsp.WellFormed

/-- A response that carries exactly a text (R99). -/
def IsTextAnswer (rsp : Response) (text : List Byte) : Prop :=
  rsp.rtxtLen.toNat = text.length ∧
  (∀ (i : Nat) (h : i < txtOutMax), rsp.rtxt[i] = text.getD i 0x00) ∧
  rsp.r = 0 ∧ rsp.rSgn = false ∧ rsp.rExp = 0 ∧ rsp.rNonfinite = false ∧ rsp.flags = 0x00

/-! ## The numbers words denote -/

/-- (-1)^s × c × 10^e (R30). -/
def Unpacked.value (u : Unpacked) : ℚ :=
  (if u.s then -1 else 1) * (u.c : ℚ) * (10 : ℚ) ^ u.e

/-- The rational a fraction denotes. -/
def Frac.toRat (q : Frac) : ℚ := (q.num : ℚ) / (q.den : ℚ)

/-- |`F64Val(u)`| of a finite binary64 pattern, as rule R39 writes it. -/
def f64Value (u : Word) : ℚ :=
  if slice u 62 52 = 0 then (slice u 51 0 : ℚ) * (2 : ℚ) ^ (-1074 : ℤ)
  else (2 ^ 52 + (slice u 51 0 : ℚ)) * (2 : ℚ) ^ ((slice u 62 52 : ℤ) - 1075)

/-- The ASCII code of a decimal digit (R40). -/
def asciiDigit (d : Nat) : Byte := BitVec.ofNat 8 (0x30 + d)

/-- The decimal digits of n in ASCII, most significant first; "0" for 0 (R98). -/
def asciiDigits (n : Nat) : List Byte :=
  if n = 0 then [0x30] else (Nat.digits 10 n).reverse.map asciiDigit

/-- A sign as a text may write it: none or `+` for positive, `-` for negative (R40). -/
def IsSignText (t : List Byte) (neg : Bool) : Prop :=
  (t = [] ∧ neg = false) ∨ (t = [0x2B] ∧ neg = false) ∨ (t = [0x2D] ∧ neg = true)

end Sys2Proof.Machine
end

