-- ==== Sys2Proof/Certificates/Slice0/Obligations.lean ====
section
/-! DEFINITION. The statements for the provers, each a named proposition. They come from the numbered
rules of spec/, file by file; the docstring of each names the rules it formalises. Every operation
completes in every state, so most statements have the completed operation as their conclusion. -/

open Sys2Proof Sys2Proof.Machine

/-! ## Requests and steps -/

/-- R42, R45, R117: the request that carries an instruction decodes to that instruction, and the
host may issue it exactly when the instruction is well formed. -/
def Obligations.DecodeOfEncodedInstruction : Prop :=
  ∀ (p : Params) (i : Instr), decode (encode i) = .ok i ∧ (encode i).wf p = i.wf p

/-- R13, R42, R45: two requests decode to the same instruction exactly when they ask for the same
operation with the same values in the fields it reads. -/
def Obligations.DecodesAlikeExactlyOnUsedFields : Prop :=
  ∀ q r : Request, q.op.toNat ≤ 9 → (decode q = decode r ↔ UsedFieldsAgree q r)

/-- R42, R43: the words of the opcode table, and requests written out field by field. That a table
word's operand fields are all zero is the model's choice (log entry 8). -/
def Obligations.OperationMapWords : Prop :=
  decodeTableWord 8 0b0000 = some (.encode false 0 0) ∧
  decodeTableWord 8 0b0001 = some (.decode 0) ∧
  decodeTableWord 8 0b0010 = some (.add 0 0) ∧
  decodeTableWord 8 0b0011 = some (.sub 0 0) ∧
  decodeTableWord 8 0b0100 = some (.mul 0 0) ∧
  decodeTableWord 8 0b0101 = some (.div 0 0) ∧
  decodeTableWord 8 0b0110 = some (.toDouble 0) ∧
  decodeTableWord 8 0b0111 = some (.fromDouble 0) ∧
  decodeTableWord 8 0b1000 = some (.fromString []) ∧
  decodeTableWord 8 0b1001 = some (.toString 0) ∧
  decodeTableWord 8 0b1010 = none ∧ decodeTableWord 8 0b1111 = none ∧
  decode ⟨0b0000, 15, 7, true, 0xFFFFFFFF, 9, [1]⟩ = .ok (.encode true 15 0xFFFFFFFF) ∧
  decode ⟨0b0101, 1, 3, true, 5, 9, [1]⟩ = .ok (.div 1 3) ∧
  decode ⟨0b1000, 1, 3, true, 5, 2, [0x31, 0x35, 0x39]⟩ = .ok (.fromString [0x31, 0x35])

/-- R13: a field an operation does not use has no effect on what a step does. -/
def Obligations.UnusedFieldsHaveNoEffect : Prop :=
  ∀ (s : State) (rest : List Request) (q r : Request), UsedFieldsAgree q r →
    q.wf s.params = true → r.wf s.params = true →
    step { s with requests := q :: rest } = step { s with requests := r :: rest }

/-- R10, R29: a step runs the operation that the oldest request decodes to, in the state with that
request taken off; `withFetchWord` places a table word's request there (log entry 9). -/
def Obligations.StepRunsTheDecodedInstruction : Prop :=
  (∀ (s : State) (req : Request) (rest : List Request) (i : Instr),
    s.resetAsserted = false → s.requests = req :: rest → req.wf s.params = true →
    decode req = .ok i → step s = exec i { s with requests := rest }) ∧
  (∀ (s : State) (nbits w : Nat) (i : Instr), decodeTableWord nbits w = some i →
    step (s.withFetchWord nbits w) = exec i { s with resetAsserted := false })

/-- R43, R117: a request with a reserved `op`, and one whose text is longer than `TXT_IN_MAX`, is
refused by name (which of the two names comes first is the model's choice, log entry 6). -/
def Obligations.RequestsWithoutMeaningAreRefused : Prop :=
  ∀ (s : State) (req : Request) (rest : List Request),
    s.resetAsserted = false → s.requests = req :: rest →
    (10 ≤ req.op.toNat → step s = .refused (.reservedOp req.op)) ∧
    (req.op.toNat ≤ 9 → admitsLength s.params req.txtLen = false →
      step s = .refused (.textTooLong req.txtLen))

/-- R28, R110, R117: no step faults, and a step goes on unless the oldest request breaks one of the
host's obligations. Two of the cases in which it goes on are the model's: with no request (the idle
step, log entry 3), and with reset asserted, even before an illegal request (log entry 4). -/
def Obligations.OnlyIllegalRequestsStopTheBlock : Prop :=
  ∀ s : State, (∀ f : Fault, step s ≠ .fault f) ∧
    ((∃ t, step s = .next t) ↔
      (s.resetAsserted = true ∨
        ∀ (req : Request) (rest : List Request), s.requests = req :: rest →
          req.wf s.params = true))

/-- R27: with no request taken, a step sends nothing and changes nothing (the model's idle step,
log entry 3). -/
def Obligations.NoResponseWithoutARequest : Prop :=
  ∀ s : State, s.resetAsserted = false → s.requests = [] → step s = .next s

/-- R120: reset drops the requests not yet answered without a response; a request issued after it
gets the response that a block fresh from reset with the same parameters gives. That this takes one
step, and that an illegal request not yet answered is dropped as well, is the model's choice (log
entry 4). -/
def Obligations.ResetDropsUnansweredRequests : Prop :=
  ∀ s : State, s.resetAsserted = true →
    ∃ t, step s = .next t ∧ t.requests = [] ∧ t.resetAsserted = false ∧
      t.responses = s.responses ∧ t.params = s.params ∧
      ∀ req : Request, req.wf s.params = true → ∃ rsp u v,
        step (t.issue req) = .next u ∧ u.responses = s.responses ++ [rsp] ∧
        step (State.issue { State.reset with params := s.params } req) = .next v ∧
        v.responses = [rsp]

/-- R7, R19, R120, R121: the state right after reset. The place of the parameters (log entry 2), the
empty response list (log entry 14) and the idle step that leaves the state alone (log entry 3) are
the model's. -/
def Obligations.ResetStateIsIdle : Prop :=
  State.reset.requests = [] ∧ State.reset.responses = [] ∧ State.reset.resetAsserted = false ∧
  State.reset.params.largeExp = .split ∧ State.reset.params.alignRound = .truncate ∧
  State.reset.params.txtInMax = some 255 ∧ step State.reset = .next State.reset

/-- R10, R13, R25, R27, R28: there is one function of parameters and request, blind to the fields the
operation does not use, such that a run over any sequence of legal requests answers each of them,
once, in order, with that function's response, and changes nothing else. -/
def Obligations.ResponsesComeInRequestOrder : Prop :=
  ∃ answerTo : Params → Request → Response,
    (∀ (p : Params) (q r : Request), q.wf p = true → r.wf p = true → UsedFieldsAgree q r →
      answerTo p q = answerTo p r) ∧
    ∀ s : State, s.resetAsserted = false → s.Admissible →
      core.run s.requests.length s =
        .next { s with
          requests := []
          responses := s.responses ++ s.requests.map (answerTo s.params) }

/-- R18, R25, R27: the frame of all ten operations. Each one completes in every state, sends exactly
one response and changes nothing else, and the response depends on the parameters alone. -/
def Obligations.OperationsSendOneResponseAndNothingElse : Prop :=
  ∀ (i : Instr) (s : State), ∃ t rsp, exec i s = .next t ∧
    t.params = s.params ∧ t.resetAsserted = s.resetAsserted ∧ t.requests = s.requests ∧
    t.responses = s.responses ++ [rsp] ∧
    ∀ s' : State, s'.params = s.params →
      ∃ t', exec i s' = .next t' ∧ t'.responses = s'.responses ++ [rsp]

/-- R14: a response field an operation does not produce is zero; bytes of a text past its length
are 0x00. -/
def Obligations.UnproducedFieldsAreZero : Prop :=
  ∀ (i : Instr) (s : State), ∃ rsp, exec i s = .next (s.respond rsp) ∧
    ((∀ a, i ≠ .decode a) → rsp.rSgn = false ∧ rsp.rExp = 0 ∧ rsp.rNonfinite = false) ∧
    ((∀ a, i ≠ .toString a) → rsp.rtxtLen = 0 ∧
      ∀ (j : Nat) (h : j < txtOutMax), rsp.rtxt[j] = 0x00) ∧
    ((∃ a, i = .toString a) → rsp.r = 0 ∧
      ∀ (j : Nat) (h : j < txtOutMax), rsp.rtxtLen.toNat ≤ j → rsp.rtxt[j] = 0x00)

/-- R16: whatever a step sends has flags 0x00. -/
def Obligations.FlagsAreAlwaysNone : Prop :=
  (∀ (i : Instr) (s : State), ∃ rsp, exec i s = .next (s.respond rsp) ∧ rsp.flags = 0x00) ∧
  ∀ s t : State, step s = .next t → ∀ rsp ∈ t.responses, rsp ∈ s.responses ∨ rsp.flags = 0x00

/-- R14, R16, R22, R40, R55, R100: if every response sent so far is well formed, so is every response
sent after the next step. -/
def Obligations.ResponsesStayWellFormed : Prop :=
  ∀ s t : State, s.Inv → step s = .next t → t.Inv

/-- R19, R121: the invariant holds right after reset. It does because no response is recorded then,
which is the model's choice (log entry 14). -/
def Obligations.ResponsesWellFormedAtReset : Prop := State.reset.Inv

/-- R38: the block emits a standard-form word, `NAN64`, `PINF64` or `NINF64`, and never the
large-coefficient form. -/
def Obligations.EmittedDecimalsAreStandardForm : Prop :=
  ∀ (i : Instr) (s : State), producesDecimal i = true →
    ∃ rsp, exec i s = .next (s.respond rsp) ∧ EmittedDecimal rsp.r

/-! ## The codec -/

/-- R55 (with the layouts of R31 to R35): DECODE on every word, class by class, for both values of `P_LARGE_EXP`. -/
def Obligations.DecodeReadsEveryWordByTheTable : Prop :=
  ∀ (v : Word) (s : State),
    (slice v 62 59 ≤ 0b1011 → classify v = .finite ∧ exec (.decode v) s = .next (s.respond
      { r := BitVec.ofNat 64 (slice v 52 0), rSgn := v.getLsbD 63,
        rExp := BitVec.ofInt 32 ((slice v 62 53 : Int) - 398), rNonfinite := false,
        rtxtLen := 0, rtxt := Vector.replicate 24 0, flags := 0x00 })) ∧
    (0b1100 ≤ slice v 62 59 → slice v 62 59 ≤ 0b1110 → classify v = .finite ∧
      exec (.decode v) s = .next (s.respond
      { r := BitVec.ofNat 64 (2 ^ 53 + slice v 50 0), rSgn := v.getLsbD 63,
        rExp := BitVec.ofInt 32
          (((match s.params.largeExp with
            | .split => slice v 60 59 * 256 + slice v 51 44
            | .contig => slice v 60 51 : Nat) : Int) - 398),
        rNonfinite := false, rtxtLen := 0, rtxt := Vector.replicate 24 0, flags := 0x00 })) ∧
    (slice v 62 59 = 0b1111 → classify v = (if slice v 58 58 = 0 then .inf else .nan) ∧
      exec (.decode v) s = .next (s.respond
      { r := 0, rSgn := v.getLsbD 63, rExp := 0, rNonfinite := true,
        rtxtLen := 0, rtxt := Vector.replicate 24 0, flags := 0x00 }))

/-- R33, R51: the ranges of an unpacked operand, for both values of `P_LARGE_EXP`. -/
def Obligations.UnpackedOperandsAreInRange : Prop :=
  ∀ (p : Params) (v : Word), isFinite v = true →
    -398 ≤ (unpack p v).e ∧ (unpack p v).e ≤ 369 ∧ (unpack p v).c ≤ 2 ^ 53 + 2 ^ 51 - 1 ∧
    (isLargeForm v = false → (unpack p v).c ≤ 2 ^ 53 - 1) ∧
    (isLargeForm v = true → 2 ^ 53 ≤ (unpack p v).c)

/-- R52: `Pack` on its domain, and `Inf64`. -/
def Obligations.PackedWordsUnpackToTheirFields : Prop :=
  (∀ (p : Params) (s : Bool) (c : Nat) (e : Int), c ≤ 2 ^ 53 - 1 → -398 ≤ e → e ≤ 369 →
    pack s c e = (BitVec.ofNat 64 s.toNat <<< 63) ||| (BitVec.ofInt 64 (e + 398) <<< 53) |||
      BitVec.ofNat 64 c ∧
    StandardFinite (pack s c e) ∧ unpack p (pack s c e) = ⟨s, c, e⟩) ∧
  inf64 false = 0x7800000000000000 ∧ inf64 true = 0xF800000000000000

/-- R53: `Encode` does the four steps of the rule, one turn of a loop at a time. -/
def Obligations.EncodeFollowsItsSteps : Prop :=
  ∀ (s : Bool) (c : Nat) (e : Int),
    encode64 s 0 e = pack s 0 (if e < -398 then -398 else if e > 369 then 369 else e) ∧
    (2 ^ 53 - 1 < c → e + 1 > 369 → encode64 s c e = inf64 s) ∧
    (2 ^ 53 - 1 < c → e + 1 ≤ 369 → encode64 s c e = encode64 s ((c + 5) / 10) (e + 1)) ∧
    (0 < c → c ≤ 2 ^ 53 - 1 → e < -398 → 0 < c / 10 →
      encode64 s c e = encode64 s (c / 10) (e + 1)) ∧
    (0 < c → c ≤ 2 ^ 53 - 1 → e < -398 → c / 10 = 0 → encode64 s c e = pack s 0 (-398)) ∧
    (0 < c → c ≤ 2 ^ 53 - 1 → -398 ≤ e → encode64 s c e = pack s c (if e > 369 then 369 else e))

/-- R54 item 1: the result is a packed finite value, or, only from a coefficient above `MAXCOEF`,
the Infinity of the given sign. -/
def Obligations.EncodeGivesFiniteOrSignedInfinity : Prop :=
  ∀ (s : Bool) (c : Nat) (e : Int),
    (∃ (c' : Nat) (e' : Int), c' ≤ 2 ^ 53 - 1 ∧ -398 ≤ e' ∧ e' ≤ 369 ∧
      encode64 s c e = pack s c' e') ∨
    (2 ^ 53 - 1 < c ∧ encode64 s c e = inf64 s)

/-- R54 items 3 and 4, R67: rounding goes one digit at a time until the coefficient fits, and
saturates exactly when the exponent would pass 369 on the way. -/
def Obligations.RoundingGoesOneDigitAtATime : Prop :=
  ∀ (s : Bool) (c : Nat) (e : Int), 2 ^ 53 - 1 < c →
    ∃ n : Nat, 1 ≤ n ∧ (∀ m < n, 2 ^ 53 - 1 < (fun c => (c + 5) / 10)^[m] c) ∧
      900719925474099 ≤ (fun c => (c + 5) / 10)^[n] c ∧
      (fun c => (c + 5) / 10)^[n] c ≤ 2 ^ 53 - 1 ∧
      encode64 s c e =
        if 369 < e + n then inf64 s else encode64 s ((fun c => (c + 5) / 10)^[n] c) (e + n)

/-- R54 item 5, R67: below the range the coefficient is truncated, never rounded, until the exponent
is -398; a value that runs out of digits is the zero of its sign at -398. -/
def Obligations.UnderflowTruncates : Prop :=
  ∀ (s : Bool) (c : Nat) (e : Int), 0 < c → c ≤ 2 ^ 53 - 1 → e < -398 →
    encode64 s c e = pack s (c / 10 ^ (-398 - e).toNat) (-398)

/-- R54 items 2 and 6, R56: ENCODE changes nothing in range, and cuts the exponent of a coefficient
that fits to 369 without making it an Infinity. -/
def Obligations.EncodeOfAFittingCoefficient : Prop :=
  ∀ (sgn : Bool) (coef : Word) (exp : BitVec 32) (s : State),
    0 < coef.toNat → coef.toNat ≤ 2 ^ 53 - 1 → -398 ≤ exp.toInt →
    exec (.encode sgn coef exp) s =
      .next (s.respond (Response.value (pack sgn coef.toNat (min exp.toInt 369))))

/-- R56: ENCODE of the three ports. -/
def Obligations.EncodeOfThePorts : Prop :=
  ∀ (sgn : Bool) (coef : Word) (exp : BitVec 32) (s : State),
    exec (.encode sgn coef exp) s = .next (s.respond
      { Response.blank with r := encode64 sgn coef.toNat exp.toInt, flags := 0x00 })

/-- R57: DECODE after ENCODE returns the triple; re-encoding an unpacked word gives the word back
exactly when it is in the standard form. -/
def Obligations.EncodeThenDecodeReturnsTheTriple : Prop :=
  (∀ (st : State) (s : Bool) (c : Nat) (e : Int), c ≤ 2 ^ 53 - 1 → -398 ≤ e → e ≤ 369 →
    ∃ w, exec (.encode s (BitVec.ofNat 64 c) (BitVec.ofInt 32 e)) st =
        .next (st.respond (Response.value w)) ∧
      exec (.decode w) st = .next (st.respond
        { Response.blank with
          rNonfinite := false, rSgn := s, r := BitVec.ofNat 64 c, rExp := BitVec.ofInt 32 e })) ∧
  (∀ (p : Params) (v : Word), isFinite v = true →
    (encode64 (unpack p v).s (unpack p v).c (unpack p v).e = v ↔ isLargeForm v = false))

/-! ## The arithmetic engine -/

/-- R60: a non-finite operand gives `NAN64` in all four operations; an Infinity comes out only by
saturation: both operands are finite, the coefficient that the operation hands to `Encode` (the
combination of the aligned coefficients, the product, the scaled quotient) is above `MAXCOEF`, and
the result is its encoding. -/
def Obligations.NonFiniteOperandsGiveNaN : Prop :=
  (∀ (a b : Word) (s : State), isFinite a = false ∨ isFinite b = false →
    exec (.add a b) s = .next (s.respond (Response.value 0x7C00000000000000)) ∧
    exec (.sub a b) s = .next (s.respond (Response.value 0x7C00000000000000)) ∧
    exec (.mul a b) s = .next (s.respond (Response.value 0x7C00000000000000)) ∧
    exec (.div a b) s = .next (s.respond (Response.value 0x7C00000000000000))) ∧
  (∀ (a b r : Word) (s : State), classify r = .inf →
    ∀ x y : Unpacked, unpack s.params a = x → unpack s.params b = y →
      (exec (.add a b) s = .next (s.respond (Response.value r)) →
        isFinite a = true ∧ isFinite b = true ∧
        ∀ (ca cb c : Nat) (e : Int) (sgn : Bool),
          align s.params x.c x.e y.c y.e = (ca, cb, e) → combine x.s ca y.s cb = (sgn, c) →
          2 ^ 53 - 1 < c ∧ r = encode64 sgn c e ∧ r = inf64 sgn) ∧
      (exec (.sub a b) s = .next (s.respond (Response.value r)) →
        isFinite a = true ∧ isFinite b = true ∧
        ∀ (ca cb c : Nat) (e : Int) (sgn : Bool),
          align s.params x.c x.e y.c y.e = (ca, cb, e) → combine x.s ca (!y.s) cb = (sgn, c) →
          2 ^ 53 - 1 < c ∧ r = encode64 sgn c e ∧ r = inf64 sgn) ∧
      (exec (.mul a b) s = .next (s.respond (Response.value r)) →
        isFinite a = true ∧ isFinite b = true ∧ 2 ^ 53 - 1 < x.c * y.c ∧
        r = encode64 (x.s ^^ y.s) (x.c * y.c) (x.e + y.e) ∧ r = inf64 (x.s ^^ y.s)) ∧
      (exec (.div a b) s = .next (s.respond (Response.value r)) →
        isFinite a = true ∧ isFinite b = true ∧ y.c ≠ 0 ∧
        ∃ t : Nat,
          (∀ j < t, x.c * 10 ^ j < y.c * 10 ^ 15 ∧ x.e - y.e - j > -398) ∧
          ¬ (x.c * 10 ^ t < y.c * 10 ^ 15 ∧ x.e - y.e - t > -398) ∧
          2 ^ 53 - 1 < x.c * 10 ^ t / y.c ∧
          r = encode64 (x.s ^^ y.s) (x.c * 10 ^ t / y.c) (x.e - y.e - t) ∧
          r = inf64 (x.s ^^ y.s)))

/-- R61: `Negate` inverts bit 63 and nothing else, whatever the class. -/
def Obligations.NegateFlipsTheSignBitOnly : Prop :=
  ∀ (p : Params) (v : Word),
    negate v = v ^^^ (1#64 <<< 63) ∧ (negate v).getLsbD 63 = !v.getLsbD 63 ∧
    (∀ i < 63, (negate v).getLsbD i = v.getLsbD i) ∧ classify (negate v) = classify v ∧
    (isFinite v = true → unpack p (negate v) = { unpack p v with s := !(unpack p v).s })

/-- R62: the closed form of the alignment. With H the operand of the larger exponent and d the
distance, H is scaled up k times, k being the largest possible, and the other one is scaled down
d - k times; exchanging the operands exchanges the results. -/
def Obligations.AlignClosedForm : Prop :=
  ∀ (p : Params) (cH : Nat) (eH : Int) (cL : Nat) (eL : Int), eL ≤ eH →
    ∃ k : Nat, k ≤ (eH - eL).toNat ∧ (k = 0 ∨ cH * 10 ^ k ≤ 2 ^ 53 - 1) ∧
      (k = (eH - eL).toNat ∨ 2 ^ 53 - 1 < cH * 10 ^ (k + 1)) ∧
      align p cH eH cL eL =
        (cH * 10 ^ k, (down p)^[(eH - eL).toNat - k] cL, eH - k) ∧
      align p cL eL cH eH =
        ((down p)^[(eH - eL).toNat - k] cL, cH * 10 ^ k, eH - k) ∧
      (p.alignRound = .truncate → (down p)^[(eH - eL).toNat - k] cL =
        cL / 10 ^ ((eH - eL).toNat - k)) ∧
      (p.alignRound = .halfUp → (down p)^[(eH - eL).toNat - k] cL =
        (fun c => (c + 5) / 10)^[(eH - eL).toNat - k] cL)

/-- R63: ADD. A non-finite operand gives `NAN64`; otherwise the aligned coefficients are combined and
encoded at the common exponent. -/
def Obligations.AddCombinesAlignedCoefficients : Prop :=
  ∀ (a b : Word) (s : State),
    (isFinite a = false ∨ isFinite b = false →
      exec (.add a b) s = .next (s.respond (Response.value 0x7C00000000000000))) ∧
    (isFinite a = true → isFinite b = true →
      ∀ (x y : Unpacked) (ca cb : Nat) (e : Int),
        unpack s.params a = x → unpack s.params b = y →
        align s.params x.c x.e y.c y.e = (ca, cb, e) →
        (x.s = y.s →
          exec (.add a b) s = .next (s.respond (Response.value (encode64 x.s (ca + cb) e)))) ∧
        (x.s ≠ y.s → cb < ca →
          exec (.add a b) s = .next (s.respond (Response.value (encode64 x.s (ca - cb) e)))) ∧
        (x.s ≠ y.s → ca < cb →
          exec (.add a b) s = .next (s.respond (Response.value (encode64 y.s (cb - ca) e)))) ∧
        (x.s ≠ y.s → ca = cb →
          exec (.add a b) s = .next (s.respond (Response.value (encode64 false 0 e)))))

/-- R69 item 1: ADD and MUL are commutative on all words, finite or not. -/
def Obligations.AddAndMulCommute : Prop :=
  ∀ (a b : Word) (s : State),
    exec (.add a b) s = exec (.add b a) s ∧ exec (.mul a b) s = exec (.mul b a) s

/-- R62, R63, R64: when the coefficients, brought to the smaller exponent, add up to at most
`MAXCOEF`, no digit is dropped: ADD and SUB give the exact sum and difference. -/
def Obligations.AddAndSubAreExactWhenNothingIsDropped : Prop :=
  ∀ (a b : Word) (s : State), isFinite a = true → isFinite b = true →
    ∀ x y : Unpacked, unpack s.params a = x → unpack s.params b = y →
      x.c * 10 ^ (x.e - min x.e y.e).toNat + y.c * 10 ^ (y.e - min x.e y.e).toNat ≤ 2 ^ 53 - 1 →
      ∃ v w, exec (.add a b) s = .next (s.respond (Response.value v)) ∧
        exec (.sub a b) s = .next (s.respond (Response.value w)) ∧
        StandardFinite v ∧ (unpack s.params v).value = x.value + y.value ∧
        StandardFinite w ∧ (unpack s.params w).value = x.value - y.value

/-- R69 item 3: adding +0E0 to a standard-form word gives the same word when its exponent is at most
0 and it is no negative zero, and always the same number. -/
def Obligations.AddingZeroKeepsTheNumber : Prop :=
  ∀ (a : Word) (s : State), StandardFinite a →
    ∃ w, exec (.add a 0x31C0000000000000) s = .next (s.respond (Response.value w)) ∧
      StandardFinite w ∧ (unpack s.params w).value = (unpack s.params a).value ∧
      ((unpack s.params a).e ≤ 0 → ¬ ((unpack s.params a).s = true ∧ (unpack s.params a).c = 0) →
        w = a)

/-- R64: SUB is ADD of the negated second operand. -/
def Obligations.SubAddsTheNegation : Prop :=
  ∀ (a b : Word) (s : State), exec (.sub a b) s = exec (.add a (b ^^^ (1#64 <<< 63))) s

/-- R64 corners (b) and (d), as the pseudocode gives them (log entry 15): a finite a less itself is
+0 at a's exponent, and exchanging the operands negates the result unless both results are the +0 of
an exact cancellation. -/
def Obligations.SubOfSelfAndOfExchangedOperands : Prop :=
  (∀ (a : Word) (s : State), isFinite a = true → exec (.sub a a) s =
    .next (s.respond (Response.value (pack false 0 (unpack s.params a).e)))) ∧
  (∀ (a b : Word) (s : State), isFinite a = true → isFinite b = true →
    ∃ v w, exec (.sub a b) s = .next (s.respond (Response.value v)) ∧
      exec (.sub b a) s = .next (s.respond (Response.value w)) ∧
      (w = negate v ∨
        ∃ e : Int, -398 ≤ e ∧ e ≤ 369 ∧ v = pack false 0 e ∧ w = pack false 0 e))

/-- R65: MUL. A non-finite operand gives `NAN64`; otherwise the exact product is encoded. -/
def Obligations.MulEncodesTheExactProduct : Prop :=
  ∀ (a b : Word) (s : State),
    (isFinite a = false ∨ isFinite b = false →
      exec (.mul a b) s = .next (s.respond (Response.value 0x7C00000000000000))) ∧
    (isFinite a = true → isFinite b = true →
      ∀ x y : Unpacked, unpack s.params a = x → unpack s.params b = y →
        exec (.mul a b) s =
          .next (s.respond (Response.value (encode64 (x.s ^^ y.s) (x.c * y.c) (x.e + y.e)))) ∧
        -796 ≤ x.e + y.e ∧ x.e + y.e ≤ 738 ∧ x.c * y.c < 2 ^ 107)

/-- R54, R65: a product that fits the format is the exact product of the two numbers. -/
def Obligations.MulIsExactInRange : Prop :=
  ∀ (a b : Word) (s : State), isFinite a = true → isFinite b = true →
    ∀ x y : Unpacked, unpack s.params a = x → unpack s.params b = y →
      x.c * y.c ≤ 2 ^ 53 - 1 → -398 ≤ x.e + y.e → x.e + y.e ≤ 369 →
      ∃ w, exec (.mul a b) s = .next (s.respond (Response.value w)) ∧ StandardFinite w ∧
        (unpack s.params w).value = x.value * y.value

/-- R69 item 2: multiplying a finite word by 1E0 gives the word back exactly when it is in the
standard form. -/
def Obligations.MulByOneIsIdentityOnStandardForm : Prop :=
  ∀ (a : Word) (s : State), isFinite a = true →
    ∃ w, exec (.mul a 0x31C0000000000001) s = .next (s.respond (Response.value w)) ∧
      (w = a ↔ isLargeForm a = false)

/-- R66: DIV. A non-finite operand gives `NAN64`, and so does a zero divisor; otherwise the numerator
is scaled up for as long as it is below cb × 10^15 and the exponent is above -398, and the truncated
quotient is encoded. -/
def Obligations.DivScalesAndTruncates : Prop :=
  ∀ (a b : Word) (s : State),
    (isFinite a = false ∨ isFinite b = false →
      exec (.div a b) s = .next (s.respond (Response.value 0x7C00000000000000))) ∧
    (isFinite a = true → isFinite b = true →
      ∀ x y : Unpacked, unpack s.params a = x → unpack s.params b = y →
        (y.c = 0 → exec (.div a b) s = .next (s.respond (Response.value 0x7C00000000000000))) ∧
        (y.c ≠ 0 → ∃ t : Nat,
          (∀ j < t, x.c * 10 ^ j < y.c * 10 ^ 15 ∧ x.e - y.e - j > -398) ∧
          ¬ (x.c * 10 ^ t < y.c * 10 ^ 15 ∧ x.e - y.e - t > -398) ∧
          exec (.div a b) s = .next (s.respond (Response.value
            (encode64 (x.s ^^ y.s) (x.c * 10 ^ t / y.c) (x.e - y.e - t))))))

/-- R66 corners (c) and (i): away from the bottom of the exponent range a scaled quotient has exactly
sixteen digits, truncated, after at most 32 turns. -/
def Obligations.DivKeepsSixteenDigits : Prop :=
  ∀ (a b : Word) (s : State), isFinite a = true → isFinite b = true →
    ∀ x y : Unpacked, unpack s.params a = x → unpack s.params b = y →
      x.c ≠ 0 → y.c ≠ 0 → x.c < y.c * 10 ^ 15 → -366 ≤ x.e - y.e →
      ∃ t q : Nat, 1 ≤ t ∧ t ≤ 32 ∧ 10 ^ 15 ≤ q ∧ q < 10 ^ 16 ∧
        q * y.c ≤ x.c * 10 ^ t ∧ x.c * 10 ^ t < (q + 1) * y.c ∧
        exec (.div a b) s = .next (s.respond (Response.value
          (encode64 (x.s ^^ y.s) q (x.e - y.e - t))))

/-- R69 items 4 and 6: division by zero is NaN, and MAXCOEF E369 squared saturates. -/
def Obligations.DivByZeroAndOverflowInstances : Prop :=
  ∀ s : State,
    (∀ a : Word, exec (.div a 0x31C0000000000000) s =
      .next (s.respond (Response.value 0x7C00000000000000))) ∧
    exec (.mul 0x5FFFFFFFFFFFFFFF 0x5FFFFFFFFFFFFFFF) s =
      .next (s.respond (Response.value 0x7800000000000000)) ∧
    exec (.mul 0xDFFFFFFFFFFFFFFF 0x5FFFFFFFFFFFFFFF) s =
      .next (s.respond (Response.value 0xF800000000000000))

/-! ## The binary-float bridge -/

/-- R80: the sample powers of ten, and the ends of the range where they are infinite or zero. -/
def Obligations.PowersOfTenSamples : Prop :=
  p10 (-1) = 0x3FB999999999999A ∧ p10 (-3) = 0x3F50624DD2F1A9FC ∧
  p10 (-16) = 0x3C9CD2B297D889BC ∧ p10 23 = 0x44B52D02C7E14AF6 ∧
  p10 308 = 0x7FE1CCF385EBC8A0 ∧ p10 (-323) = 0x0000000000000002 ∧
  p10 309 = 0x7FF0000000000000 ∧ p10 369 = 0x7FF0000000000000 ∧
  p10 (-324) = 0 ∧ p10 (-398) = 0

/-- R39, R80: `RN64` gives +infinity from (2^53 - 1/2) × 2^971 up, and below it the finite
non-negative pattern nearest to the rational, the one with an even fraction where two are. -/
def Obligations.RoundingToBinary64IsNearestEven : Prop :=
  ∀ q : Frac, 0 < q.den →
    ((2 ^ 53 - 1 / 2 : ℚ) * 2 ^ 971 ≤ q.toRat → rn64 q = 0x7FF0000000000000) ∧
    (q.toRat < (2 ^ 53 - 1 / 2 : ℚ) * 2 ^ 971 →
      slice (rn64 q) 62 52 < 0x7FF ∧ (rn64 q).getLsbD 63 = false ∧
      ∀ u : Word, slice u 62 52 < 0x7FF → u.getLsbD 63 = false →
        |f64Value (rn64 q) - q.toRat| ≤ |f64Value u - q.toRat| ∧
        (|f64Value (rn64 q) - q.toRat| = |f64Value u - q.toRat| → u ≠ rn64 q →
          slice (rn64 q) 51 0 % 2 = 0))

/-- R80: the helpers round the exact value, whichever fraction it is written as: `U64ToF64(c)` is
`RN64(c)`, `P10(e)` is `RN64(10^e)` for every e, and `FMul` of two finite non-negative patterns is
`RN64` of the product of their values; infinity times a nonzero value is infinity. -/
def Obligations.BinaryHelpersRoundTheExactValue : Prop :=
  (∀ (c : Nat) (q : Frac), 0 < q.den → q.toRat = (c : ℚ) → u64ToF64 c = rn64 q) ∧
  (∀ (e : ℤ) (q : Frac), 0 < q.den → q.toRat = (10 : ℚ) ^ e → p10 e = rn64 q) ∧
  (∀ x y : Word, x.getLsbD 63 = false → slice x 62 52 < 0x7FF →
    y.getLsbD 63 = false → slice y 62 52 < 0x7FF →
    ∀ q : Frac, 0 < q.den → q.toRat = f64Value x * f64Value y → fmul x y = rn64 q) ∧
  (∀ x : Word, x ≠ 0 → x.getLsbD 63 = false →
    slice x 62 52 < 0x7FF ∨ x = 0x7FF0000000000000 →
    fmul x 0x7FF0000000000000 = 0x7FF0000000000000 ∧
    fmul 0x7FF0000000000000 x = 0x7FF0000000000000)

/-- R81: TO_DOUBLE on every class. -/
def Obligations.ToDoubleRoundsThePowerThenTheProduct : Prop :=
  ∀ (v : Word) (s : State),
    (classify v = .nan →
      exec (.toDouble v) s = .next (s.respond (Response.value 0x7FF8000000000000))) ∧
    (classify v = .inf → exec (.toDouble v) s = .next (s.respond (Response.value
      (if v.getLsbD 63 then 0xFFF0000000000000 else 0x7FF0000000000000)))) ∧
    (classify v = .finite → ∀ x : Unpacked, unpack s.params v = x →
      (x.c = 0 → exec (.toDouble v) s = .next (s.respond (Response.value
        (if x.s then 0x8000000000000000 else 0)))) ∧
      (x.c ≠ 0 → exec (.toDouble v) s = .next (s.respond (Response.value
        ((if x.s then 0x8000000000000000 else 0) ||| fmul (u64ToF64 x.c) (p10 x.e))))))

/-- R81 corners (b) and (c): a nonzero value with exponent 309 or more is the signed infinity, one
with exponent -324 or less the signed zero, whatever its coefficient. -/
def Obligations.ToDoubleAtTheExtremes : Prop :=
  ∀ (v : Word) (s : State), isFinite v = true → (unpack s.params v).c ≠ 0 →
    (309 ≤ (unpack s.params v).e → exec (.toDouble v) s = .next (s.respond (Response.value
      (if v.getLsbD 63 then 0xFFF0000000000000 else 0x7FF0000000000000)))) ∧
    ((unpack s.params v).e ≤ -324 → exec (.toDouble v) s = .next (s.respond (Response.value
      (if v.getLsbD 63 then 0x8000000000000000 else 0))))

/-- R39, R82: FROM_DOUBLE on every class; a nonzero finite value is rounded once, ties away from
zero, to a coefficient of fifteen digits at the exponent of its exact decimal logarithm. -/
def Obligations.FromDoubleRoundsToFifteenDigits : Prop :=
  ∀ (u : Word) (s : State),
    (slice u 62 52 = 0x7FF → slice u 51 0 ≠ 0 →
      exec (.fromDouble u) s = .next (s.respond (Response.value 0x7C00000000000000))) ∧
    (slice u 62 52 = 0x7FF → slice u 51 0 = 0 →
      exec (.fromDouble u) s = .next (s.respond (Response.value
        (if u.getLsbD 63 then 0xF800000000000000 else 0x7800000000000000)))) ∧
    (slice u 62 52 = 0 → slice u 51 0 = 0 →
      exec (.fromDouble u) s = .next (s.respond (Response.value
        (if u.getLsbD 63 then 0xB1C0000000000000 else 0x31C0000000000000)))) ∧
    (slice u 62 52 ≠ 0x7FF → ¬ (slice u 62 52 = 0 ∧ slice u 51 0 = 0) →
      ∃ k : ℤ, (10 : ℚ) ^ k ≤ f64Value u ∧ f64Value u < (10 : ℚ) ^ (k + 1) ∧
        exec (.fromDouble u) s = .next (s.respond (Response.value
          (encode64 (u.getLsbD 63) ⌊f64Value u / (10 : ℚ) ^ (k - 14) + 1 / 2⌋₊ (k - 14)))))

/-- R82 corners (a) and (b): the rule's own coefficient floor(q + 1/2) is 10^14 to 10^15 and its own
exponent k - 14 is -338 to 294, so the encoder alters nothing: the result is their `Pack`. -/
def Obligations.FromDoubleNeverLeavesTheRange : Prop :=
  ∀ (u : Word) (s : State), slice u 62 52 ≠ 0x7FF → ¬ (slice u 62 52 = 0 ∧ slice u 51 0 = 0) →
    ∀ k : ℤ, (10 : ℚ) ^ k ≤ f64Value u → f64Value u < (10 : ℚ) ^ (k + 1) →
      ∀ c : Nat, c = ⌊f64Value u / (10 : ℚ) ^ (k - 14) + 1 / 2⌋₊ →
        10 ^ 14 ≤ c ∧ c ≤ 10 ^ 15 ∧ -338 ≤ k - 14 ∧ k - 14 ≤ 294 ∧
        exec (.fromDouble u) s =
          .next (s.respond (Response.value (pack (u.getLsbD 63) c (k - 14))))

/-! ## The text bridge -/

/-- R91: after an optional sign, the three letters of "nan" or "inf" in any case decide the result,
whatever follows; a sign before "nan" has no effect. -/
def Obligations.TokensDecideTheResult : Prop :=
  ∀ (sign : List Byte) (neg : Bool) (x y z : Byte) (rest : List Byte) (s : State),
    IsSignText sign neg →
    ((x = 0x6E ∨ x = 0x4E) → (y = 0x61 ∨ y = 0x41) → (z = 0x6E ∨ z = 0x4E) →
      exec (.fromString (sign ++ x :: y :: z :: rest)) s =
        .next (s.respond (Response.value 0x7C00000000000000))) ∧
    ((x = 0x69 ∨ x = 0x49) → (y = 0x6E ∨ y = 0x4E) → (z = 0x66 ∨ z = 0x46) →
      exec (.fromString (sign ++ x :: y :: z :: rest)) s =
        .next (s.respond (Response.value
          (if neg then 0xF800000000000000 else 0x7800000000000000))))

/-- R92, R93: the transition table of the scan, state by state, byte class by byte class, and what
taking a digit does before and after the sixteenth significant digit. -/
def Obligations.ScanTransitions : Prop :=
  ∀ (q : Parser) (ch : Byte) (rest : List Byte),
    scan q [] = q ∧ scan q (0x00 :: rest) = q ∧
    (ch ≠ 0x00 → scan q (ch :: rest) = scan (scanByte q ch) rest) ∧
    (isDigit ch = true →
      (q.mode = .int → scanByte q ch = takeDigit (ch.toNat - 0x30) false q) ∧
      (q.mode = .frac → scanByte q ch = takeDigit (ch.toNat - 0x30) true q) ∧
      (q.mode = .esign → scanByte q ch = { q with ev := ch.toNat - 0x30, mode := .edig }) ∧
      (q.mode = .edig → scanByte q ch = { q with ev := q.ev * 10 + (ch.toNat - 0x30) })) ∧
    (scanByte q 0x2E = if q.mode = .int then { q with mode := .frac } else q) ∧
    (ch = 0x45 ∨ ch = 0x65 → scanByte q ch =
      if q.mode = .int ∨ q.mode = .frac then { q with mode := .esign } else q) ∧
    (scanByte q 0x2B = if q.mode = .esign then { q with mode := .edig } else q) ∧
    (scanByte q 0x2D = if q.mode = .esign then { q with eneg := true, mode := .edig } else q) ∧
    (isDigit ch = false → ch ∉ [0x2E, 0x45, 0x65, 0x2B, 0x2D] → scanByte q ch = q) ∧
    (∀ d : Nat,
      (q.nd < 16 →
        takeDigit d false q = { q with
          c := q.c * 10 + d
          nd := if q.c * 10 + d = 0 then q.nd else q.nd + 1 } ∧
        takeDigit d true q = { q with
          c := q.c * 10 + d
          e := q.e - 1
          nd := if q.c * 10 + d = 0 then q.nd else q.nd + 1 }) ∧
      (16 ≤ q.nd →
        takeDigit d false q = { q with e := q.e + 1 } ∧ takeDigit d true q = q))

/-- R92: a byte the parser does not recognise has no effect wherever it stands in the scan. -/
def Obligations.UnrecognisedBytesAreSkipped : Prop :=
  ∀ (q : Parser) (before after : List Byte) (ch : Byte), ch ≠ 0x00 → isDigit ch = false →
    ch ∉ [0x2E, 0x45, 0x65, 0x2B, 0x2D] →
    scan q (before ++ ch :: after) = scan q (before ++ after)

/-- R21, R92, R96 (f): a NUL inside the text ends it. -/
def Obligations.NulEndsTheText : Prop :=
  ∀ (before after : List Byte) (s : State),
    exec (.fromString (before ++ 0x00 :: after)) s = exec (.fromString before) s

/-- R93: at most sixteen significant digits are taken; the coefficient stays below 10^16 and has
exactly as many digits as were counted. -/
def Obligations.AtMostSixteenDigitsAreTaken : Prop :=
  ∀ t : List Byte, ∀ q : Parser, scan Parser.init t = q →
    q.nd ≤ 16 ∧ q.c < 10 ^ q.nd ∧ (0 < q.nd → 10 ^ (q.nd - 1) ≤ q.c)

/-- R95, R96: a text that starts no token is scanned after its sign and encoded with the sum of the
two exponents. -/
def Obligations.FromStringEncodesTheScan : Prop :=
  ∀ (sign text : List Byte) (neg : Bool) (s : State), IsSignText sign neg →
    (sign = [] → ∀ ch ∈ text.head?, ch ≠ 0x2B ∧ ch ≠ 0x2D) →
    isToken 0x6E 0x61 0x6E text = false → isToken 0x69 0x6E 0x66 text = false →
    ∀ q : Parser, scan Parser.init text = q →
      exec (.fromString (sign ++ text)) s = .next (s.respond (Response.value
        (encode64 neg q.c (q.e + (if q.eneg then -(q.ev : Int) else (q.ev : Int))))))

/-- R92 to R95: a decimal literal (optional sign, digits, optional point and digits, optional
exponent with optional sign) of at most sixteen digits is encoded with exactly its digits and its
exponent. -/
def Obligations.DecimalLiteralsParseExactly : Prop :=
  ∀ (sign point marker esign : List Byte) (neg eneg : Bool) (ip fp xp : List Nat) (s : State),
    IsSignText sign neg → IsSignText esign eneg →
    (point = [0x2E] ∨ (point = [] ∧ fp = [])) →
    (marker = [0x45] ∨ marker = [0x65] ∨ (marker = [] ∧ esign = [] ∧ xp = [])) →
    (∀ d ∈ ip ++ fp ++ xp, d < 10) → ip.length + fp.length ≤ 16 →
    exec (.fromString (sign ++ ip.map asciiDigit ++ point ++ fp.map asciiDigit ++
        marker ++ esign ++ xp.map asciiDigit)) s =
      .next (s.respond (Response.value (encode64 neg (Nat.ofDigits 10 (ip ++ fp).reverse)
        ((if eneg then -(Nat.ofDigits 10 xp.reverse : Int) else (Nat.ofDigits 10 xp.reverse : Int))
          - fp.length))))

/-- R92 to R95: any decimal literal (optional sign, digits, optional point and digits, optional
exponent with optional sign) of any length. Its leading zeros count no significant digit, so the
digits taken are the first sixteen after them, or all where there are fewer. With n positions taken,
the exponent is lowered by the fraction digits taken (leading fraction zeros among them), raised by
the integer digits dropped, and not moved by the fraction digits dropped: in all, the integer length
less n. -/
def Obligations.DigitsBeyondSixteenAreDropped : Prop :=
  ∀ (sign point marker esign : List Byte) (neg eneg : Bool) (ip fp xp : List Nat) (s : State),
    IsSignText sign neg → IsSignText esign eneg →
    (point = [0x2E] ∨ (point = [] ∧ fp = [])) →
    (marker = [0x45] ∨ marker = [0x65] ∨ (marker = [] ∧ esign = [] ∧ xp = [])) →
    (∀ d ∈ ip ++ fp ++ xp, d < 10) →
    ∀ n : Nat,
      n = min (((ip ++ fp).takeWhile (· == 0)).length + 16) (ip ++ fp).length →
      exec (.fromString (sign ++ ip.map asciiDigit ++ point ++ fp.map asciiDigit ++
          marker ++ esign ++ xp.map asciiDigit)) s =
        .next (s.respond (Response.value (encode64 neg
          (Nat.ofDigits 10 ((ip ++ fp).take n).reverse)
          ((if eneg then -(Nat.ofDigits 10 xp.reverse : Int) else (Nat.ofDigits 10 xp.reverse : Int))
            + ((ip.length : Int) - n)))))

/-- R97, R98, R99: TO_STRING on every class. For a finite nonzero c × 10^e the mantissa is the digits
of c without its trailing zeros and the exponent counts the digits before they are removed. -/
def Obligations.ToStringPrintsScientificNotation : Prop :=
  ∀ (v : Word) (s : State), ∃ (rsp : Response) (text : List Byte),
    exec (.toString v) s = .next (s.respond rsp) ∧ IsTextAnswer rsp text ∧
    (classify v = .nan → text = [0x2B, 0x4E, 0x61, 0x4E]) ∧
    (classify v = .inf → text = [if v.getLsbD 63 then 0x2D else 0x2B, 0x49, 0x6E, 0x66]) ∧
    (classify v = .finite → ∀ x : Unpacked, unpack s.params v = x →
      (x.c = 0 → text = [if x.s then 0x2D else 0x2B, 0x30, 0x45, 0x2B, 0x30]) ∧
      (x.c ≠ 0 → ∃ (m z : Nat) (adj : Int), x.c = m * 10 ^ z ∧ m % 10 ≠ 0 ∧
        adj = x.e + ((Nat.digits 10 x.c).length - 1) ∧
        text = (if x.s then 0x2D else 0x2B) :: (asciiDigits m).take 1 ++
          (if 10 ≤ m then 0x2E :: (asciiDigits m).drop 1 else []) ++
          [0x45, if adj < 0 then 0x2D else 0x2B] ++ asciiDigits adj.natAbs))

/-- R100: the length of every text. -/
def Obligations.TextLengthBounds : Prop :=
  ∀ (v : Word) (s : State), ∃ rsp, exec (.toString v) s = .next (s.respond rsp) ∧
    4 ≤ rsp.rtxtLen.toNat ∧ rsp.rtxtLen.toNat ≤ 24 ∧
    (isFinite v = true → 5 ≤ rsp.rtxtLen.toNat) ∧
    (isFinite v = true → isLargeForm v = false → rsp.rtxtLen.toNat ≤ 23)

/-- R101: FROM_STRING of TO_STRING's text returns the word for `NAN64`, the two Infinities, ±0E0 and
every standard-form word whose coefficient has no trailing zero; and printing, parsing and printing
again prints the same text for every non-finite word, every zero, and every standard-form word whose
exponent plus trailing zeros is at most 369. -/
def Obligations.PrintedTextParsesBack : Prop :=
  (∀ (v : Word) (s : State),
    (v = 0x7C00000000000000 ∨ v = 0x7800000000000000 ∨ v = 0xF800000000000000 ∨
      v = 0x31C0000000000000 ∨ v = 0xB1C0000000000000 ∨
      (StandardFinite v ∧ (unpack s.params v).c % 10 ≠ 0)) →
    exec (.fromString (formatText s.params v)) s = .next (s.respond (Response.value v))) ∧
  (∀ (p : Params) (v : Word),
    (isFinite v = false ∨ (isFinite v = true ∧ (unpack p v).c = 0) ∨
      (StandardFinite v ∧ ∃ m z : Nat, (unpack p v).c = m * 10 ^ z ∧ m % 10 ≠ 0 ∧
        (unpack p v).e + z ≤ 369)) →
    formatText p (parseText (formatText p v)) = formatText p v)
end

