-- ==== Sys2Proof/Laws/Bits.lean ====
section
/-! SUPPORT. Slices of a word as arithmetic on its value, and the word `Pack` makes. -/

namespace Sys2Proof.Machine

theorem slice_eq (v : Word) (hi lo : Nat) :
    slice v hi lo = v.toNat / 2 ^ lo % 2 ^ (hi - lo + 1) := by
  simp [slice, BitVec.extractLsb, Nat.shiftRight_eq_div_pow]

theorem slice_lt (v : Word) (hi lo : Nat) : slice v hi lo < 2 ^ (hi - lo + 1) := by
  rw [slice_eq]; exact Nat.mod_lt _ (by positivity)

theorem signBit_eq (v : Word) : signBit v = decide (2 ^ 63 ≤ v.toNat) := by
  have h : v.toNat < 2 ^ 64 := v.isLt
  rw [signBit, BitVec.getLsbD, Nat.testBit_eq_decide_div_mod_eq]
  congr 1
  apply propext
  omega

/-- The value of a packed word on the domain of rule R52: the three fields do not overlap. -/
theorem pack_toNat (s : Bool) (c : Nat) (e : Int) (hc : c ≤ maxCoef) (h₁ : eMin ≤ e)
    (h₂ : e ≤ eMax) :
    (pack s c e).toNat =
      (if s then 2 ^ 63 else 0) + (e + bias).toNat * 2 ^ 53 + c := by
  simp only [maxCoef, eMin, eMax] at *
  simp only [pack, BitVec.toNat_ofNat, bias]
  apply Nat.mod_eq_of_lt
  split <;> omega

end Sys2Proof.Machine
end

