-- ==== Sys2Proof/Laws/Encode.lean ====
section
/-! SUPPORT. The two loops of `Encode` (rule R53): a bound at least as large as the one `encode64`
gives does not change what they answer, so each unrolls as the rule's `while` does. -/

namespace Sys2Proof.Machine

theorem log2_succ_le_of_le_half {a b : Nat} (hb : 2 ≤ b) (h : a ≤ b / 2) :
    a.log2 + 1 ≤ b.log2 := by
  rcases Nat.eq_zero_or_pos a with rfl | ha
  · have : 1 ≤ b.log2 := (Nat.le_log2 (by omega)).2 (by omega)
    simpa using this
  · refine (Nat.le_log2 (by omega)).2 ?_
    have h₁ : 2 ^ a.log2 ≤ a := Nat.log2_self_le (by omega)
    rw [Nat.pow_succ]; omega

/-- A turn of step 2 at least halves a coefficient that does not fit. -/
theorem roundDigit_log2 {c : Nat} (h : maxCoef < c) : (roundDigit c).log2 + 1 ≤ c.log2 := by
  simp only [maxCoef] at h
  exact log2_succ_le_of_le_half (by omega) (by simp only [roundDigit]; omega)

/-- Any bound above the binary length of the coefficient lets step 2 finish. -/
theorem roundLoop_fuel : ∀ (f g c : Nat) (e : Int), c.log2 < f → c.log2 < g →
    roundLoop f c e = roundLoop g c e := by
  intro f
  induction f with
  | zero => intro g c e hf; omega
  | succ f ih =>
    intro g c e hf hg
    obtain ⟨g, rfl⟩ : ∃ g', g = g' + 1 := ⟨g - 1, by omega⟩
    simp only [roundLoop]
    split
    · rfl
    · split
      · rfl
      · have h := roundDigit_log2 (c := c) (by omega)
        exact ih g _ _ (by omega) (by omega)

/-- Any bound above the binary length of the coefficient lets step 3 finish. -/
theorem truncLoop_fuel : ∀ (f g c : Nat) (e : Int), c.log2 < f → c.log2 < g →
    truncLoop f c e = truncLoop g c e := by
  intro f
  induction f with
  | zero => intro g c e hf; omega
  | succ f ih =>
    intro g c e hf hg
    obtain ⟨g, rfl⟩ : ∃ g', g = g' + 1 := ⟨g - 1, by omega⟩
    simp only [truncLoop]
    split
    · rename_i h
      rcases Nat.lt_or_ge c 2 with h2 | h2
      · have hc : c / 10 = 0 := by omega
        rw [hc]
        cases f <;> cases g <;> simp [truncLoop]
      · have := log2_succ_le_of_le_half (a := c / 10) h2 (by omega)
        exact ih g _ _ (by omega) (by omega)
    · rfl

/-- Step 2 unrolled: the `while` loop as rule R53 writes it. -/
theorem roundLoop_eq (c : Nat) (e : Int) :
    roundLoop (c.log2 + 1) c e =
      if c ≤ maxCoef then some (c, e)
      else if e + 1 > eMax then none
      else roundLoop ((roundDigit c).log2 + 1) (roundDigit c) (e + 1) := by
  rw [roundLoop]
  split
  · rfl
  · split
    · rfl
    · have h := roundDigit_log2 (c := c) (by omega)
      exact roundLoop_fuel _ _ _ _ (by omega) (by omega)

/-- Step 3 unrolled: the `while` loop as rule R53 writes it. -/
theorem truncLoop_eq (c : Nat) (e : Int) :
    truncLoop (c.log2 + 1) c e =
      if e < eMin ∧ c ≠ 0 then truncLoop ((c / 10).log2 + 1) (c / 10) (e + 1) else (c, e) := by
  rw [truncLoop]
  split
  · rename_i h
    rcases Nat.lt_or_ge c 2 with h2 | h2
    · have h1 : c = 1 := by omega
      subst h1
      have h0 : Nat.log2 1 = 0 := by decide
      simp [truncLoop, h0]
    · have := log2_succ_le_of_le_half (a := c / 10) h2 (by omega)
      exact truncLoop_fuel _ _ _ _ (by omega) (by omega)
  · rfl

end Sys2Proof.Machine
end

