-- ==== Sys2Proof/Laws/State.lean ====
section
/-! SUPPORT. One lemma per field per update of the state and of the response record, all by
definition, so that no proof unfolds a record update. -/

namespace Sys2Proof.Machine

/-! ## State updates -/

@[simp] theorem State.respond_params (s : State) (x : Response) :
    (s.respond x).params = s.params := rfl
@[simp] theorem State.respond_resetAsserted (s : State) (x : Response) :
    (s.respond x).resetAsserted = s.resetAsserted := rfl
@[simp] theorem State.respond_requests (s : State) (x : Response) :
    (s.respond x).requests = s.requests := rfl
@[simp] theorem State.respond_responses (s : State) (x : Response) :
    (s.respond x).responses = s.responses ++ [x] := rfl

@[simp] theorem State.issue_params (s : State) (q : Request) :
    (s.issue q).params = s.params := rfl
@[simp] theorem State.issue_resetAsserted (s : State) (q : Request) :
    (s.issue q).resetAsserted = s.resetAsserted := rfl
@[simp] theorem State.issue_requests (s : State) (q : Request) :
    (s.issue q).requests = s.requests ++ [q] := rfl
@[simp] theorem State.issue_responses (s : State) (q : Request) :
    (s.issue q).responses = s.responses := rfl

@[simp] theorem State.actOnReset_params (s : State) : s.actOnReset.params = s.params := rfl
@[simp] theorem State.actOnReset_resetAsserted (s : State) :
    s.actOnReset.resetAsserted = false := rfl
@[simp] theorem State.actOnReset_requests (s : State) : s.actOnReset.requests = [] := rfl
@[simp] theorem State.actOnReset_responses (s : State) :
    s.actOnReset.responses = s.responses := rfl

@[simp] theorem State.withFetchWord_params (s : State) (n w : Nat) :
    (s.withFetchWord n w).params = s.params := rfl
@[simp] theorem State.withFetchWord_resetAsserted (s : State) (n w : Nat) :
    (s.withFetchWord n w).resetAsserted = false := rfl
@[simp] theorem State.withFetchWord_requests (s : State) (n w : Nat) :
    (s.withFetchWord n w).requests = requestOfTableWord w :: s.requests := rfl
@[simp] theorem State.withFetchWord_responses (s : State) (n w : Nat) :
    (s.withFetchWord n w).responses = s.responses := rfl

/-! ## Response records -/

@[simp] theorem Response.blank_r : Response.blank.r = 0 := rfl
@[simp] theorem Response.blank_rSgn : Response.blank.rSgn = false := rfl
@[simp] theorem Response.blank_rExp : Response.blank.rExp = 0 := rfl
@[simp] theorem Response.blank_rNonfinite : Response.blank.rNonfinite = false := rfl
@[simp] theorem Response.blank_rtxtLen : Response.blank.rtxtLen = 0 := rfl
@[simp] theorem Response.blank_rtxt : Response.blank.rtxt = Vector.replicate txtOutMax 0 := rfl
@[simp] theorem Response.blank_flags : Response.blank.flags = flagsNone := rfl

@[simp] theorem Response.value_r (v : Word) : (Response.value v).r = v := rfl
@[simp] theorem Response.value_rSgn (v : Word) : (Response.value v).rSgn = false := rfl
@[simp] theorem Response.value_rExp (v : Word) : (Response.value v).rExp = 0 := rfl
@[simp] theorem Response.value_rNonfinite (v : Word) : (Response.value v).rNonfinite = false := rfl
@[simp] theorem Response.value_rtxtLen (v : Word) : (Response.value v).rtxtLen = 0 := rfl
@[simp] theorem Response.value_rtxt (v : Word) :
    (Response.value v).rtxt = Vector.replicate txtOutMax 0 := rfl
@[simp] theorem Response.value_flags (v : Word) : (Response.value v).flags = flagsNone := rfl

@[simp] theorem textResponse_r (t : List Byte) : (textResponse t).r = 0 := rfl
@[simp] theorem textResponse_rSgn (t : List Byte) : (textResponse t).rSgn = false := rfl
@[simp] theorem textResponse_rExp (t : List Byte) : (textResponse t).rExp = 0 := rfl
@[simp] theorem textResponse_rNonfinite (t : List Byte) :
    (textResponse t).rNonfinite = false := rfl
@[simp] theorem textResponse_rtxtLen (t : List Byte) :
    (textResponse t).rtxtLen = BitVec.ofNat 5 t.length := rfl
@[simp] theorem textResponse_flags (t : List Byte) : (textResponse t).flags = flagsNone := rfl
@[simp] theorem textResponse_rtxt_get (t : List Byte) (i : Nat) (h : i < txtOutMax) :
    (textResponse t).rtxt[i] = t.getD i 0x00 := by
  simp [textResponse]

end Sys2Proof.Machine
end

