-- ==== Sys2Proof/Laws/Exec.lean ====
section
/-! SUPPORT. What one operation and one step can do, said once. -/

namespace Sys2Proof.Laws

open Sys2Proof Machine

/-- The response of each operation as a function of the parameters and the operands alone. -/
def answer (p : Params) : Instr → Response
  | .encode sgn coef exp => Response.value (encode64 sgn coef.toNat exp.toInt)
  | .decode a => decodeResponse p a
  | .add a b => Response.value (addResult p a b)
  | .sub a b => Response.value (subResult p a b)
  | .mul a b => Response.value (mulResult p a b)
  | .div a b => Response.value (divResult p a b)
  | .toDouble a => Response.value (toDoubleResult p a)
  | .fromDouble u => Response.value (fromDoubleResult u)
  | .fromString text => Response.value (parseText text)
  | .toString a => textResponse (formatText p a)

/-- Every operation sends its answer and does nothing else. -/
theorem exec_eq_respond (i : Instr) (s : State) :
    exec i s = .next (s.respond (answer s.params i)) := by
  cases i <;> rfl

/-- What a step can do, guards included. -/
theorem step_cases (s : State) :
    (s.resetAsserted = true ∧ step s = .next s.actOnReset) ∨
    (s.resetAsserted = false ∧ s.requests = [] ∧ step s = .next s) ∨
    (∃ req rest r, s.resetAsserted = false ∧ s.requests = req :: rest ∧
      fetch s.params req = .error r ∧ step s = .refused r) ∨
    (∃ req rest i, s.resetAsserted = false ∧ s.requests = req :: rest ∧
      fetch s.params req = .ok i ∧
      step s = .next (({ s with requests := rest } : State).respond (answer s.params i))) := by
  unfold step
  rcases hr : s.resetAsserted with _ | _
  · rcases hq : s.requests with _ | ⟨req, rest⟩
    · simp
    · rcases hf : fetch s.params req with r | i
      · simp [hf]
      · simp [hf, exec_eq_respond]
  · simp

/-- The fetch of a request succeeds exactly on the host's obligations. -/
theorem fetch_ok_iff (p : Params) (req : Request) (i : Instr) :
    fetch p req = .ok i ↔ decode req = .ok i ∧ admitsLength p req.txtLen = true := by
  unfold fetch
  rcases hd : decode req with ⟨op⟩ | j
  · simp
  · by_cases h : admitsLength p req.txtLen <;> simp [h]

end Sys2Proof.Laws
end

