-- ==== Sys2Proof/Laws/Loops.lean ====
section
/-! SUPPORT. The other loops: alignment (R62), the divider's scaling (R66), the decimal digit
loops (R82, R98) and the scan (R92). Each lemma says once what its loop answers. -/

namespace Sys2Proof.Machine

/-- Any bound that is at least the distance of the exponents lets the alignment finish. -/
theorem alignLoop_fuel (p : Params) : ∀ (f g ca : Nat) (ea : Int) (cb : Nat) (eb : Int),
    (ea - eb).natAbs ≤ f → (ea - eb).natAbs ≤ g →
    alignLoop p f ca ea cb eb = alignLoop p g ca ea cb eb := by
  intro f
  induction f with
  | zero =>
    intro g ca ea cb eb hf _
    have : ea = eb := by omega
    cases g <;> simp [alignLoop, this]
  | succ f ih =>
    intro g ca ea cb eb hf hg
    rcases Nat.eq_zero_or_pos g with rfl | hpos
    · have : ea = eb := by omega
      simp [alignLoop, this]
    · obtain ⟨g, rfl⟩ : ∃ g', g = g' + 1 := ⟨g - 1, by omega⟩
      simp only [alignLoop]
      split
      · rfl
      · split <;> split <;> exact ih g _ _ _ _ (by omega) (by omega)

/-- `Align` unrolled: the `while` loop as rule R62 writes it. -/
theorem align_eq (p : Params) (ca : Nat) (ea : Int) (cb : Nat) (eb : Int) :
    align p ca ea cb eb =
      if ea = eb then (ca, cb, ea)
      else if ea > eb then
        if ca * 10 ≤ maxCoef then align p (ca * 10) (ea - 1) cb eb
        else align p ca ea (down p cb) (eb + 1)
      else
        if cb * 10 ≤ maxCoef then align p ca ea (cb * 10) (eb - 1)
        else align p (down p ca) (ea + 1) cb eb := by
  rw [align, alignLoop_fuel p _ ((ea - eb).natAbs + 1) _ _ _ _ le_rfl (by omega), alignLoop]
  split
  · rfl
  · split <;> split <;> exact alignLoop_fuel p _ _ _ _ _ _ (by omega) le_rfl

/-- The scaling loop of DIV stops at the first turn at which its guard fails. -/
theorem scaleLoop_spec (lim : Nat) : ∀ (f n : Nat) (e : Int), e - eMin ≤ f →
    ∃ t : Nat, scaleLoop lim f n e = (n * 10 ^ t, e - t) ∧
      (∀ j < t, n * 10 ^ j < lim ∧ e - j > eMin) ∧
      ¬ (n * 10 ^ t < lim ∧ e - t > eMin) := by
  intro f
  induction f with
  | zero =>
    intro n e hf
    exact ⟨0, by simp [scaleLoop], by simp, by simp; omega⟩
  | succ f ih =>
    intro n e hf
    by_cases h : n < lim ∧ e > eMin
    · obtain ⟨t, ht, hlt, hstop⟩ := ih (n * 10) (e - 1) (by omega)
      refine ⟨t + 1, ?_, ?_, ?_⟩
      · rw [scaleLoop, if_pos h, ht]
        simp only [Prod.mk.injEq]
        exact ⟨by ring, by push_cast; ring⟩
      · intro j hj
        cases j with
        | zero => simpa using h
        | succ j =>
          have := hlt j (by omega)
          refine ⟨?_, by push_cast; omega⟩
          calc n * 10 ^ (j + 1) = n * 10 * 10 ^ j := by ring
            _ < lim := this.1
      · intro hc
        apply hstop
        refine ⟨?_, by have := hc.2; push_cast at this; omega⟩
        calc n * 10 * 10 ^ t = n * 10 ^ (t + 1) := by ring
          _ < lim := hc.1
    · exact ⟨0, by simp [scaleLoop, h], by simp, by simpa using h⟩

/-- `ilog10` is the exact floor of the decimal logarithm. -/
theorem ilog10Loop_spec : ∀ (f n : Nat), 0 < n → n.log2 ≤ f →
    10 ^ ilog10Loop f n ≤ n ∧ n < 10 ^ (ilog10Loop f n + 1) := by
  intro f
  induction f with
  | zero =>
    intro n hn hf
    have : n < 2 := by
      have := (Nat.log2_lt (n := n) (k := 1) (by omega)).1 (by omega)
      simpa using this
    simp only [ilog10Loop]
    omega
  | succ f ih =>
    intro n hn hf
    simp only [ilog10Loop]
    split
    · simp; omega
    · have h := log2_succ_le_of_le_half (a := n / 10) (b := n) (by omega) (by omega)
      have := ih (n / 10) (by omega) (by omega)
      rw [pow_succ, pow_succ]
      rw [pow_succ] at this
      omega

theorem ilog10_spec {n : Nat} (hn : 0 < n) : 10 ^ ilog10 n ≤ n ∧ n < 10 ^ (ilog10 n + 1) :=
  ilog10Loop_spec _ n hn le_rfl

/-- Any bound that is at least the binary length lets the digit loop finish. -/
theorem digitsLoop_fuel : ∀ (f g n : Nat), n.log2 ≤ f → n.log2 ≤ g →
    digitsLoop f n = digitsLoop g n := by
  have small : ∀ g n, n < 10 → digitsLoop g n = [digitCode n] := by
    intro g n hn
    cases g <;> simp [digitsLoop, hn]
  intro f
  induction f with
  | zero =>
    intro g n hf _
    have : n < 10 := by
      rcases Nat.eq_zero_or_pos n with rfl | hn
      · omega
      · have := (Nat.log2_lt (n := n) (k := 1) (by omega)).1 (by omega)
        omega
    rw [small 0 n this, small g n this]
  | succ f ih =>
    intro g n hf hg
    by_cases hn : n < 10
    · rw [small _ n hn, small _ n hn]
    · have h := log2_succ_le_of_le_half (a := n / 10) (b := n) (by omega) (by omega)
      obtain ⟨g, rfl⟩ : ∃ g', g = g' + 1 := ⟨g - 1, by omega⟩
      simp only [digitsLoop, if_neg hn]
      rw [ih g (n / 10) (by omega) (by omega)]

/-- `Digits(n)` unrolled. -/
theorem digits_eq (n : Nat) :
    digits n = if n < 10 then [digitCode n] else digits (n / 10) ++ [digitCode (n % 10)] := by
  by_cases hn : n < 10
  · rw [if_pos hn, digits, digitsLoop_fuel _ (n.log2 + 1) n le_rfl (by omega)]
    simp [digitsLoop, hn]
  · have h := log2_succ_le_of_le_half (a := n / 10) (b := n) (by omega) (by omega)
    obtain ⟨g, hg⟩ : ∃ g', n.log2 = g' + 1 := ⟨n.log2 - 1, by omega⟩
    rw [if_neg hn, digits, hg, digitsLoop, if_neg hn,
      digitsLoop_fuel g (n / 10).log2 (n / 10) (by omega) le_rfl, ← digits]

/-- A text without NUL is scanned through to its end. -/
theorem scan_append (q : Parser) (xs ys : List Byte) (h : ∀ x ∈ xs, x ≠ 0x00) :
    scan q (xs ++ ys) = scan (scan q xs) ys := by
  induction xs generalizing q with
  | nil => rfl
  | cons x xs ih =>
    have hx : x ≠ 0x00 := h x (by simp)
    simp only [List.cons_append, scan, if_neg hx]
    exact ih _ fun y hy => h y (by simp [hy])

end Sys2Proof.Machine
end

