-- ==== Sys2Proof/Laws/PerInstr.lean ====
section
/-! SUPPORT. Statements made once for each constructor of `Instr`. -/

namespace Sys2Proof

/-- The valid bytes of a request whose list holds exactly `txt_len` bytes are that list. -/
theorem Request.text_of_length_eq (req : Request) (h : req.txt.length = req.txtLen) :
    req.text = req.txt := by
  simp [Request.text, ← h]

end Sys2Proof

namespace Sys2Proof.Laws.RoundTrip

open Sys2Proof

/-- The request that carries an instruction decodes to that instruction. -/
def Statement (i : Instr) : Prop := Sys2Proof.decode (Sys2Proof.encode i) = .ok i

theorem encode (sgn : Bool) (coef : Word) (exp : BitVec 32) :
    Statement (.encode sgn coef exp) := rfl
theorem decode (a : Word) : Statement (.decode a) := rfl
theorem add (a b : Word) : Statement (.add a b) := rfl
theorem sub (a b : Word) : Statement (.sub a b) := rfl
theorem mul (a b : Word) : Statement (.mul a b) := rfl
theorem div (a b : Word) : Statement (.div a b) := rfl
theorem toDouble (a : Word) : Statement (.toDouble a) := rfl
theorem fromDouble (u : Word) : Statement (.fromDouble u) := rfl
theorem fromString (text : List Byte) : Statement (.fromString text) := by
  have h : (Sys2Proof.encode (.fromString text)).text = text :=
    Request.text_of_length_eq _ rfl
  show Except.ok (Instr.fromString (Sys2Proof.encode (.fromString text)).text) = _
  rw [h]
theorem toString (a : Word) : Statement (.toString a) := rfl

end Sys2Proof.Laws.RoundTrip
end

