-- ==== Sys2Proof/Tests/Slice0.lean ====
section
/-! SUPPORT. Tests of the model. Every expected value is the spec's: the vectors of
spec/95_test_vectors.md, the bit layouts of spec/30_encoding.md and the examples of the operation
rules. The last part shows, for each statement with hypotheses, concrete values that meet them. -/

namespace Sys2Proof.Tests

open Sys2Proof Machine

/-- One request issued to a block fresh from reset. -/
def oneRequest (req : Request) : State := State.reset.issue req

/-- The response to one request after reset, if there is one. -/
def answerTo (req : Request) : Option Response :=
  match step (oneRequest req) with
  | .next s => s.responses.head?
  | _ => none

/-- The `r` of the response to an instruction's request. -/
def resultOf (i : Instr) : Option Word := (answerTo (encode i)).map (·.r)

/-- The valid text bytes of the response to an instruction's request. -/
def textOf (i : Instr) : Option (List Byte) :=
  (answerTo (encode i)).map fun rsp => rsp.rtxt.toList.take rsp.rtxtLen.toNat

/-- The default parameters with the other large-form layout. -/
def contigParams : Params := { defaultParams with largeExp := .contig }

/-- The default parameters with the other alignment rounding. -/
def halfUpParams : Params := { defaultParams with alignRound := .halfUp }

/-! ## Well-formedness -/

theorem test_wf_refuses_a_text_of_256_bytes :
    Instr.wf defaultParams (.fromString (List.replicate 256 0x30)) = false := by decide +kernel
theorem test_wf_admits_a_text_of_255_bytes :
    Instr.wf defaultParams (.fromString (List.replicate 255 0x30)) = true := by decide +kernel
theorem test_wf_refuses_op_10 : Request.wf defaultParams (Request.ofOp 10) = false := by decide
theorem test_wf_refuses_txt_len_256 :
    Request.wf defaultParams { Request.ofOp 9 with txtLen := 256 } = false := by decide
theorem test_wf_admits_any_length_without_a_bound :
    Request.wf { defaultParams with txtInMax := none } { Request.ofOp 8 with txtLen := 70000 }
      = true := by decide

/-! ## Decoding: `op` bit by bit from rule R42, operands from rule R45 -/

theorem test_decode_encode :
    decode ⟨0b0000, 15, 7, true, 0xFFFFFFFF, 3, [1]⟩ = .ok (.encode true 15 0xFFFFFFFF) := by
  decide
theorem test_decode_decode : decode ⟨0b0001, 15, 7, true, 1, 3, [1]⟩ = .ok (.decode 15) := by decide
theorem test_decode_add : decode ⟨0b0010, 15, 7, true, 1, 3, [1]⟩ = .ok (.add 15 7) := by decide
theorem test_decode_sub : decode ⟨0b0011, 15, 7, true, 1, 3, [1]⟩ = .ok (.sub 15 7) := by decide
theorem test_decode_mul : decode ⟨0b0100, 15, 7, true, 1, 3, [1]⟩ = .ok (.mul 15 7) := by decide
theorem test_decode_div : decode ⟨0b0101, 15, 7, true, 1, 3, [1]⟩ = .ok (.div 15 7) := by decide
theorem test_decode_toDouble :
    decode ⟨0b0110, 15, 7, true, 1, 3, [1]⟩ = .ok (.toDouble 15) := by decide
theorem test_decode_fromDouble :
    decode ⟨0b0111, 15, 7, true, 1, 3, [1]⟩ = .ok (.fromDouble 15) := by decide
theorem test_decode_fromString_takes_txt_len_bytes :
    decode ⟨0b1000, 15, 7, true, 1, 2, [0x31, 0x32, 0x33]⟩ = .ok (.fromString [0x31, 0x32]) := by
  decide
theorem test_decode_fromString_bytes_past_the_list_are_zero :
    decode ⟨0b1000, 0, 0, false, 0, 3, [0x31]⟩ = .ok (.fromString [0x31, 0, 0]) := by decide
theorem test_decode_toString :
    decode ⟨0b1001, 15, 7, true, 1, 3, [1]⟩ = .ok (.toString 15) := by decide
theorem test_decode_refuses_10 : decode (Request.ofOp 0b1010) = .error (.reservedOp 10) := by decide
theorem test_decode_refuses_15 : decode (Request.ofOp 0b1111) = .error (.reservedOp 15) := by decide
theorem test_table_words :
    (List.range 16).map (fun w => (decodeTableWord 8 w).isSome) =
      List.replicate 10 true ++ List.replicate 6 false := by decide

/-! ## Steps -/

theorem test_step_refuses_reserved_op :
    step (oneRequest (Request.ofOp 10)) = .refused (.reservedOp 10) := rfl
theorem test_step_refuses_long_text :
    step (oneRequest { Request.ofOp 9 with txtLen := 256 }) = .refused (.textTooLong 256) := rfl
theorem test_step_waits_without_request : step State.reset = .next State.reset := rfl
theorem test_step_reset_drops_requests :
    step { oneRequest (Request.ofOp 10) with resetAsserted := true } = .next State.reset := rfl
theorem test_step_runs_a_table_word :
    step (State.reset.withFetchWord 8 0b0011) = exec (.sub 0 0) State.reset := rfl

/-! ## ENCODE (95_test_vectors.md 2.1) -/

theorem test_encode_rounds_one_digit :
    resultOf (.encode false 9007199254740992 0) = some 0x31E3333333333333 := by decide +kernel
theorem test_encode_clamps_the_exponent :
    resultOf (.encode false 1 370) = some 0x5FE0000000000001 := by decide +kernel
theorem test_encode_rounds_before_it_truncates :
    encode64 false 9007199254740995 (-399) = 0x0003333333333334 := by decide +kernel

/-! ## DECODE (2.2), for both layouts of the large form -/

theorem test_decode_minus_one_and_a_half :
    answerTo (encode (.decode 0xB1A000000000000F)) =
      some { Response.blank with rSgn := true, r := 15, rExp := 0xFFFFFFFF } := by decide +kernel
theorem test_decode_large_form_split :
    (decodeResponse defaultParams 0x600FF00000000000).rExp.toInt = -143 := by decide +kernel
theorem test_decode_large_form_contig :
    (decodeResponse contigParams 0x600FF00000000000).rExp.toInt = -397 := by decide +kernel

/-! ## ADD, SUB, MUL, DIV (2.3 to 2.6) -/

theorem test_add_drops_the_small_operand :
    resultOf (.add 0x33C0000000000001 0x31C0000000000001) = some 0x31E38D7EA4C68000 := by
  decide +kernel
theorem test_add_half_up_differs :
    addResult halfUpParams 0x33C0000000000001 0x31C0000000000005 = 0x31E38D7EA4C68001 := by
  decide +kernel
theorem test_sub_one_and_a_half_less_two_and_a_half :
    resultOf (.sub 0x31A000000000000F 0x31A0000000000019) = some 0xB1A000000000000A := by
  decide +kernel
theorem test_sub_negative_zero_less_zero :
    resultOf (.sub 0xB1C0000000000000 0x31C0000000000000) = some 0xB1C0000000000000 := by
  decide +kernel
theorem test_mul_sixteen_roundings :
    resultOf (.mul 0x31DFFFFFFFFFFFFF 0x31DFFFFFFFFFFFFF) = some 0x33DCD2B297D889BA := by
  decide +kernel
theorem test_mul_infinity_by_zero :
    resultOf (.mul 0x7800000000000000 0x31C0000000000000) = some 0x7C00000000000000 := by
  decide +kernel
theorem test_div_one_by_three :
    resultOf (.div 0x31C0000000000001 0x31C0000000000003) = some 0x2FCBD7A625405555 := by
  decide +kernel
theorem test_div_thirty_one_turns :
    resultOf (.div 0x31C0000000000001 0x31DFFFFFFFFFFFFF) = some 0x2DE3F1BDF1011604 := by
  decide +kernel

/-! ## TO_DOUBLE, FROM_DOUBLE (2.7, 2.8) -/

theorem test_toDouble_two_roundings :
    resultOf (.toDouble 0x2FE110D9316EC000) = some 0x3FD3333333333334 := by decide +kernel
theorem test_toDouble_subnormal_power :
    resultOf (.toDouble 0x0967E7B160EF71C1) = some 0x000FCF62C1DEE382 := by decide +kernel
theorem test_fromDouble_tie_away_from_zero :
    resultOf (.fromDouble 0x3FF0002000000000) = some 0x30005AF3C66060F5 := by decide +kernel
theorem test_fromDouble_least_subnormal :
    resultOf (.fromDouble 0x0000000000000001) = some 0x0781C1599F50EB5F := by decide +kernel

/-! ## FROM_STRING, TO_STRING (2.9, 2.10) -/

theorem test_fromString_minus_123_456 :
    resultOf (.fromString [0x2D, 0x31, 0x32, 0x33, 0x2E, 0x34, 0x35, 0x36]) =
      some 0xB16000000001E240 := by decide +kernel
theorem test_fromString_exponent_with_skipped_bytes :
    resultOf (.fromString [0x31, 0x45, 0x2B, 0x2D, 0x35]) = some 0x3260000000000001 := by
  decide +kernel
theorem test_toString_longest :
    textOf (.toString 0x77FFFFFFFFFFFFFF) =
      some [0x2B, 0x31, 0x2E, 0x31, 0x32, 0x35, 0x38, 0x39, 0x39, 0x39, 0x30, 0x36, 0x38, 0x34,
        0x32, 0x36, 0x32, 0x33, 0x39, 0x45, 0x2B, 0x33, 0x38, 0x35] := by decide +kernel
theorem test_toString_strips_trailing_zero :
    textOf (.toString 0x3180000000000096) =
      some [0x2B, 0x31, 0x2E, 0x35, 0x45, 0x2B, 0x30] := by decide +kernel

/-! ## Witnesses: values that meet the hypotheses of the statements -/

theorem witness_DecodesAlikeExactlyOnUsedFields : (Request.ofOp 9).op.toNat ≤ 9 := by decide

theorem witness_UnusedFieldsHaveNoEffect :
    UsedFieldsAgree ⟨1, 5, 0, false, 0, 0, []⟩ ⟨1, 5, 9, true, 7, 255, [1]⟩ ∧
    Request.wf State.reset.params ⟨1, 5, 0, false, 0, 0, []⟩ = true ∧
    Request.wf State.reset.params ⟨1, 5, 9, true, 7, 255, [1]⟩ = true := by
  unfold UsedFieldsAgree; decide

theorem witness_UnusedFieldsHaveNoEffect_text :
    UsedFieldsAgree ⟨8, 0, 0, false, 0, 1, [0x31, 0x32]⟩ ⟨8, 1, 9, true, 7, 1, [0x31]⟩ ∧
    Request.wf State.reset.params ⟨8, 0, 0, false, 0, 1, [0x31, 0x32]⟩ = true ∧
    Request.wf State.reset.params ⟨8, 1, 9, true, 7, 1, [0x31]⟩ = true := by
  unfold UsedFieldsAgree; decide

theorem witness_StepRunsTheDecodedInstruction :
    (oneRequest (Request.ofOp 9)).resetAsserted = false ∧
    (oneRequest (Request.ofOp 9)).requests = Request.ofOp 9 :: [] ∧
    (Request.ofOp 9).wf (oneRequest (Request.ofOp 9)).params = true ∧
    decode (Request.ofOp 9) = .ok (.toString 0) ∧
    decodeTableWord 8 9 = some (.toString 0) := by decide

theorem witness_RequestsWithoutMeaningAreRefused_op :
    (oneRequest (Request.ofOp 10)).resetAsserted = false ∧
    (oneRequest (Request.ofOp 10)).requests = Request.ofOp 10 :: [] ∧
    10 ≤ (Request.ofOp 10).op.toNat := by decide

theorem witness_RequestsWithoutMeaningAreRefused_text :
    (oneRequest { Request.ofOp 9 with txtLen := 256 }).resetAsserted = false ∧
    (oneRequest { Request.ofOp 9 with txtLen := 256 }).requests =
      { Request.ofOp 9 with txtLen := 256 } :: [] ∧
    (9#4).toNat ≤ 9 ∧ admitsLength State.reset.params 256 = false := by decide

theorem witness_NoResponseWithoutARequest :
    State.reset.resetAsserted = false ∧ State.reset.requests = [] := by decide

theorem witness_ResetDropsUnansweredRequests :
    ({ oneRequest (Request.ofOp 2) with resetAsserted := true } : State).resetAsserted = true ∧
    (Request.ofOp 2).wf State.reset.params = true := by decide

theorem witness_ResponsesComeInRequestOrder :
    ((oneRequest (Request.ofOp 2)).issue (Request.ofOp 9)).resetAsserted = false ∧
    ((oneRequest (Request.ofOp 2)).issue (Request.ofOp 9)).Admissible := by
  unfold State.Admissible; decide

theorem witness_UnproducedFieldsAreZero :
    (∀ a, Instr.add 1 2 ≠ .decode a) ∧ (∀ a, Instr.add 1 2 ≠ .toString a) ∧
    (∃ a, Instr.toString 1 = .toString a) := by
  refine ⟨fun a => by simp, fun a => by simp, 1, rfl⟩

theorem witness_FlagsAreAlwaysNone :
    ∃ t, step (oneRequest (Request.ofOp 2)) = .next t ∧ t.responses ≠ [] :=
  ⟨_, rfl, by simp [State.respond]⟩

/-- The response with every field zero satisfies the per-response invariant. -/
theorem wellFormed_blank : Response.blank.WellFormed where
  flags_none := rfl
  exponent_range := by decide
  nonfinite_zero := by simp
  text_length := Or.inl rfl
  text_ascii := by intro i h hi; simp at hi
  text_padding := by intro i h _; simp

theorem witness_ResponsesStayWellFormed :
    ∃ s t : State, s.Inv ∧ step s = .next t ∧ s.responses ≠ [] ∧ s.requests ≠ [] := by
  refine ⟨{ oneRequest (Request.ofOp 9) with responses := [Response.blank] }, _, ?_, rfl, ?_, ?_⟩
  · intro rsp h
    obtain rfl : rsp = Response.blank := by simpa using h
    exact wellFormed_blank
  · simp
  · simp [oneRequest, State.reset]

theorem witness_EmittedDecimalsAreStandardForm :
    producesDecimal (.encode false 0 0) = true ∧ producesDecimal (.add 0 0) = true ∧
    producesDecimal (.sub 0 0) = true ∧ producesDecimal (.mul 0 0) = true ∧
    producesDecimal (.div 0 0) = true ∧ producesDecimal (.fromDouble 0) = true ∧
    producesDecimal (.fromString []) = true := by decide

theorem witness_DecodeReadsEveryWordByTheTable :
    slice 0x5FE0000000000000 62 59 ≤ 0b1011 ∧
    (0b1100 ≤ slice 0x6000000000000000 62 59 ∧ slice 0x6000000000000000 62 59 ≤ 0b1110) ∧
    (0b1100 ≤ slice 0x77FFFFFFFFFFFFFF 62 59 ∧ slice 0x77FFFFFFFFFFFFFF 62 59 ≤ 0b1110) ∧
    slice 0x7800000000000000 62 59 = 0b1111 ∧ slice 0xFC00000000000000 62 59 = 0b1111 := by decide

theorem witness_UnpackedOperandsAreInRange :
    isFinite 0x5FFFFFFFFFFFFFFF = true ∧ isLargeForm 0x5FFFFFFFFFFFFFFF = false ∧
    isFinite 0x77FFFFFFFFFFFFFF = true ∧ isLargeForm 0x77FFFFFFFFFFFFFF = true := by decide

theorem witness_PackedWordsUnpackToTheirFields :
    9007199254740991 ≤ 2 ^ 53 - 1 ∧ (-398 : Int) ≤ 369 ∧ (369 : Int) ≤ 369 ∧
    (-398 : Int) ≤ -398 := by decide

theorem witness_EncodeFollowsItsSteps :
    (2 ^ 53 - 1 < 9007199254740992 ∧ (369 : Int) + 1 > 369) ∧
    (2 ^ 53 - 1 < 9007199254740992 ∧ (368 : Int) + 1 ≤ 369) ∧
    (0 < 10 ∧ 10 ≤ 2 ^ 53 - 1 ∧ (-399 : Int) < -398 ∧ 0 < 10 / 10) ∧
    (0 < 9 ∧ 9 ≤ 2 ^ 53 - 1 ∧ (-399 : Int) < -398 ∧ 9 / 10 = 0) ∧
    (0 < 9007199254740991 ∧ 9007199254740991 ≤ 2 ^ 53 - 1 ∧ (-398 : Int) ≤ -398) := by decide

theorem witness_RoundingGoesOneDigitAtATime : 2 ^ 53 - 1 < 9007199254740992 := by decide

theorem witness_UnderflowTruncates :
    0 < 9007199254740991 ∧ 9007199254740991 ≤ 2 ^ 53 - 1 ∧ (-399 : Int) < -398 := by decide

theorem witness_EncodeOfAFittingCoefficient :
    0 < (1#64).toNat ∧ (1#64).toNat ≤ 2 ^ 53 - 1 ∧ -398 ≤ (370#32).toInt := by decide

theorem witness_EncodeThenDecodeReturnsTheTriple :
    (9007199254740991 ≤ 2 ^ 53 - 1 ∧ (-398 : Int) ≤ -398 ∧ (-398 : Int) ≤ 369) ∧
    isFinite 0x31C0000000000001 = true ∧ isLargeForm 0x31C0000000000001 = false := by decide

/-- A non-finite operand; and one saturation of each operation: MAXCOEF E369 added to itself, less
its negation, and squared, and 95E369 divided by 1E-398. -/
theorem witness_NonFiniteOperandsGiveNaN :
    (isFinite 0x7800000000000000 = false ∨ isFinite 0x31C0000000000001 = false) ∧
    classify 0x7800000000000000 = .inf ∧
    exec (.add 0x5FFFFFFFFFFFFFFF 0x5FFFFFFFFFFFFFFF) State.reset =
      .next (State.reset.respond (Response.value 0x7800000000000000)) ∧
    exec (.sub 0x5FFFFFFFFFFFFFFF 0xDFFFFFFFFFFFFFFF) State.reset =
      .next (State.reset.respond (Response.value 0x7800000000000000)) ∧
    exec (.mul 0x5FFFFFFFFFFFFFFF 0x5FFFFFFFFFFFFFFF) State.reset =
      .next (State.reset.respond (Response.value 0x7800000000000000)) ∧
    exec (.div 0x5FE000000000005F 0x0000000000000001) State.reset =
      .next (State.reset.respond (Response.value 0x7800000000000000)) ∧
    align defaultParams 9007199254740991 369 9007199254740991 369 =
      (9007199254740991, 9007199254740991, 369) ∧
    combine false 9007199254740991 false 9007199254740991 = (false, 18014398509481982) := by
  refine ⟨by decide, by decide, ?_, ?_, ?_, ?_, by decide +kernel, by decide⟩ <;> rfl

theorem witness_NegateFlipsTheSignBitOnly : isFinite 0x6000000000000000 = true := by decide

theorem witness_AlignClosedForm : (-398 : Int) ≤ 369 := by decide

/-- 5E0 with each of +3E0, -3E0, -7E0 and -5E0: the four cases of the combination. -/
theorem witness_AddCombinesAlignedCoefficients :
    (isFinite 0x7C00000000000000 = false ∨ isFinite 0x31C0000000000005 = false) ∧
    isFinite 0x31C0000000000005 = true ∧ isFinite 0x31C0000000000003 = true ∧
    isFinite 0xB1C0000000000003 = true ∧ isFinite 0xB1C0000000000007 = true ∧
    isFinite 0xB1C0000000000005 = true ∧
    align defaultParams 5 0 3 0 = (5, 3, 0) ∧ align defaultParams 5 0 7 0 = (5, 7, 0) ∧
    align defaultParams 5 0 5 0 = (5, 5, 0) ∧
    unpack defaultParams 0x31C0000000000005 = ⟨false, 5, 0⟩ ∧
    unpack defaultParams 0x31C0000000000003 = ⟨false, 3, 0⟩ ∧
    unpack defaultParams 0xB1C0000000000003 = ⟨true, 3, 0⟩ ∧
    unpack defaultParams 0xB1C0000000000007 = ⟨true, 7, 0⟩ ∧
    unpack defaultParams 0xB1C0000000000005 = ⟨true, 5, 0⟩ := by decide +kernel

theorem witness_AddAndSubAreExactWhenNothingIsDropped :
    isFinite 0x31E0000000000001 = true ∧ isFinite 0xB1C0000000000001 = true ∧
    unpack defaultParams 0x31E0000000000001 = ⟨false, 1, 1⟩ ∧
    unpack defaultParams 0xB1C0000000000001 = ⟨true, 1, 0⟩ ∧
    1 * 10 ^ ((1 : Int) - min 1 0).toNat + 1 * 10 ^ ((0 : Int) - min 1 0).toNat ≤ 2 ^ 53 - 1 := by
  decide +kernel

theorem witness_AddingZeroKeepsTheNumber :
    StandardFinite 0xB16000000001E240 ∧ (unpack defaultParams 0xB16000000001E240).e ≤ 0 ∧
    ¬ ((unpack defaultParams 0xB16000000001E240).s = true ∧
      (unpack defaultParams 0xB16000000001E240).c = 0) := by
  unfold StandardFinite; decide +kernel

theorem witness_SubOfSelfAndOfExchangedOperands :
    isFinite 0x31A000000000000F = true ∧ isFinite 0x31A0000000000019 = true := by decide

theorem witness_MulEncodesTheExactProduct :
    (isFinite 0x31C0000000000002 = false ∨ isFinite 0xF800000000000000 = false) ∧
    isFinite 0x31C0000000000002 = true ∧ isFinite 0x31A0000000000023 = true ∧
    unpack defaultParams 0x31C0000000000002 = ⟨false, 2, 0⟩ ∧
    unpack defaultParams 0x31A0000000000023 = ⟨false, 35, -1⟩ := by decide +kernel

theorem witness_MulIsExactInRange :
    isFinite 0x31C0000000000002 = true ∧ isFinite 0x31A0000000000023 = true ∧
    unpack defaultParams 0x31C0000000000002 = ⟨false, 2, 0⟩ ∧
    unpack defaultParams 0x31A0000000000023 = ⟨false, 35, -1⟩ ∧
    2 * 35 ≤ 2 ^ 53 - 1 ∧ (-398 : Int) ≤ 0 + -1 ∧ (0 : Int) + -1 ≤ 369 := by decide +kernel

theorem witness_MulByOneIsIdentityOnStandardForm : isFinite 0x6000000000000000 = true := by decide

theorem witness_DivScalesAndTruncates :
    (isFinite 0x7BFFFFFFFFFFFFFF = false ∨ isFinite 0x31C0000000000000 = false) ∧
    isFinite 0x31C0000000000001 = true ∧ isFinite 0x31C0000000000003 = true ∧
    isFinite 0x31C0000000000000 = true ∧
    unpack defaultParams 0x31C0000000000001 = ⟨false, 1, 0⟩ ∧
    unpack defaultParams 0x31C0000000000003 = ⟨false, 3, 0⟩ ∧
    unpack defaultParams 0x31C0000000000000 = ⟨false, 0, 0⟩ := by decide +kernel

theorem witness_DivKeepsSixteenDigits :
    isFinite 0x31C0000000000001 = true ∧ isFinite 0x31C0000000000003 = true ∧
    unpack defaultParams 0x31C0000000000001 = ⟨false, 1, 0⟩ ∧
    unpack defaultParams 0x31C0000000000003 = ⟨false, 3, 0⟩ ∧
    1 ≠ 0 ∧ 3 ≠ 0 ∧ 1 < 3 * 10 ^ 15 ∧ (-366 : Int) ≤ 0 - 0 := by decide +kernel

/-- (2^54 - 1) × y is (2^53 - 1/2) × 2y. -/
theorem half_unit_above_largest (y : Nat) :
    (⟨(2 ^ 54 - 1) * y, 1⟩ : Frac).toRat = (2 ^ 53 - 1 / 2) * (2 * (y : ℚ)) := by
  simp only [Frac.toRat, Nat.cast_mul, Nat.cast_one, div_one]
  norm_num
  ring

theorem witness_RoundingToBinary64IsNearestEven :
    0 < (⟨1, 3⟩ : Frac).den ∧ (⟨1, 3⟩ : Frac).toRat < (2 ^ 53 - 1 / 2 : ℚ) * 2 ^ 971 ∧
    0 < (⟨(2 ^ 54 - 1) * 2 ^ 970, 1⟩ : Frac).den ∧
    (2 ^ 53 - 1 / 2 : ℚ) * 2 ^ 971 ≤ (⟨(2 ^ 54 - 1) * 2 ^ 970, 1⟩ : Frac).toRat ∧
    slice 0x7FEFFFFFFFFFFFFF 62 52 < 0x7FF ∧ (0x7FEFFFFFFFFFFFFF#64).getLsbD 63 = false := by
  refine ⟨by decide, ?_, by decide +kernel, ?_, by decide, by decide⟩
  · have h : (1 : ℚ) ≤ 2 ^ 971 := one_le_pow₀ (by norm_num)
    generalize (2 : ℚ) ^ 971 = y at h ⊢
    norm_num [Frac.toRat]
    linarith
  · rw [half_unit_above_largest (2 ^ 970), Nat.cast_pow, Nat.cast_ofNat, pow_succ' (2 : ℚ) 970]

theorem witness_ToDoubleRoundsThePowerThenTheProduct :
    classify 0xFC00000000000001 = .nan ∧ classify 0x7BFFFFFFFFFFFFFF = .inf ∧
    classify 0xB260000000000000 = .finite ∧ unpack defaultParams 0xB260000000000000 = ⟨true, 0, 5⟩ ∧
    classify 0x31A000000000000F = .finite ∧
    unpack defaultParams 0x31A000000000000F = ⟨false, 15, -1⟩ := by decide +kernel

theorem witness_ToDoubleAtTheExtremes :
    isFinite 0x5860000000000001 = true ∧ unpack defaultParams 0x5860000000000001 = ⟨false, 1, 309⟩ ∧
    isFinite 0x0940000000000005 = true ∧
    unpack defaultParams 0x0940000000000005 = ⟨false, 5, -324⟩ := by decide +kernel

theorem witness_FromDoubleRoundsToFifteenDigits :
    (slice 0xFFF0000000000001 62 52 = 0x7FF ∧ slice 0xFFF0000000000001 51 0 ≠ 0) ∧
    (slice 0xFFF0000000000000 62 52 = 0x7FF ∧ slice 0xFFF0000000000000 51 0 = 0) ∧
    (slice 0x8000000000000000 62 52 = 0 ∧ slice 0x8000000000000000 51 0 = 0) ∧
    (slice 0x7FEFFFFFFFFFFFFF 62 52 ≠ 0x7FF ∧
      ¬ (slice 0x7FEFFFFFFFFFFFFF 62 52 = 0 ∧ slice 0x7FEFFFFFFFFFFFFF 51 0 = 0)) := by decide

/-- 1.0 has k = 0, e = -14 and the coefficient 10^14. -/
theorem witness_FromDoubleNeverLeavesTheRange :
    slice 0x3FF0000000000000 62 52 ≠ 0x7FF ∧
    ¬ (slice 0x3FF0000000000000 62 52 = 0 ∧ slice 0x3FF0000000000000 51 0 = 0) ∧
    (10 : ℚ) ^ (0 : ℤ) ≤ f64Value 0x3FF0000000000000 ∧
    f64Value 0x3FF0000000000000 < (10 : ℚ) ^ ((0 : ℤ) + 1) ∧
    100000000000000 = ⌊f64Value 0x3FF0000000000000 / (10 : ℚ) ^ ((0 : ℤ) - 14) + 1 / 2⌋₊ := by
  have h : f64Value 0x3FF0000000000000 = 1 := by
    rw [f64Value, show slice 0x3FF0000000000000 62 52 = 1023 by decide,
      show slice 0x3FF0000000000000 51 0 = 0 by decide]
    norm_num
  refine ⟨by decide, by decide, ?_, ?_, ?_⟩ <;> rw [h]
  · norm_num
  · norm_num
  · rw [eq_comm, Nat.floor_eq_iff (by positivity)]
    norm_num

/-- 2.0 × 0.5, written as the fractions 2/1, 10^0 and 3/3. -/
theorem witness_BinaryHelpersRoundTheExactValue :
    0 < (⟨2, 1⟩ : Frac).den ∧ (⟨2, 1⟩ : Frac).toRat = ((2 : Nat) : ℚ) ∧
    (⟨3, 3⟩ : Frac).toRat = (10 : ℚ) ^ (0 : ℤ) ∧
    (0x4000000000000000#64).getLsbD 63 = false ∧ slice 0x4000000000000000 62 52 < 0x7FF ∧
    (0x3FE0000000000000#64).getLsbD 63 = false ∧ slice 0x3FE0000000000000 62 52 < 0x7FF ∧
    (⟨3, 3⟩ : Frac).toRat = f64Value 0x4000000000000000 * f64Value 0x3FE0000000000000 ∧
    (0x4000000000000000#64) ≠ 0 := by
  refine ⟨by decide, by norm_num [Frac.toRat], by norm_num [Frac.toRat], by decide, by decide,
    by decide, by decide, ?_, by decide⟩
  simp only [f64Value, show slice 0x4000000000000000 62 52 = 1024 by decide,
    show slice 0x4000000000000000 51 0 = 0 by decide,
    show slice 0x3FE0000000000000 62 52 = 1022 by decide,
    show slice 0x3FE0000000000000 51 0 = 0 by decide]
  norm_num [Frac.toRat]

theorem witness_TokensDecideTheResult :
    IsSignText [0x2D] true ∧ IsSignText [] false ∧
    ((0x4E#8 = 0x6E ∨ 0x4E#8 = 0x4E) ∧ (0x61#8 = 0x61 ∨ 0x61#8 = 0x41) ∧
      (0x4E#8 = 0x6E ∨ 0x4E#8 = 0x4E)) ∧
    ((0x69#8 = 0x69 ∨ 0x69#8 = 0x49) ∧ (0x4E#8 = 0x6E ∨ 0x4E#8 = 0x4E) ∧
      (0x66#8 = 0x66 ∨ 0x66#8 = 0x46)) := by
  unfold IsSignText; decide

/-- Both ends of the digit range, an unrecognised byte, and each state of the lexer. -/
theorem witness_ScanTransitions :
    isDigit 0x30 = true ∧ isDigit 0x39 = true ∧ isDigit 0x2F = false ∧ isDigit 0x3A = false ∧
    0x3A#8 ∉ [0x2E#8, 0x45, 0x65, 0x2B, 0x2D] ∧ (0x30#8 ≠ 0x00) ∧
    (0x45#8 = 0x45 ∨ 0x45#8 = 0x65) ∧ Parser.init.mode = .int ∧
    (scan Parser.init [0x2E]).mode = .frac ∧ (scan Parser.init [0x65]).mode = .esign ∧
    (scan Parser.init [0x45, 0x2D]).mode = .edig ∧
    (scan Parser.init (List.replicate 15 0x31)).nd < 16 ∧
    16 ≤ (scan Parser.init (List.replicate 16 0x31)).nd := by decide +kernel

theorem witness_UnrecognisedBytesAreSkipped :
    0x20#8 ≠ 0x00 ∧ isDigit 0x20 = false ∧ 0x20#8 ∉ [0x2E#8, 0x45, 0x65, 0x2B, 0x2D] := by decide

theorem witness_AtMostSixteenDigitsAreTaken :
    scan Parser.init (List.replicate 17 0x39) = ⟨.int, 9999999999999999, 16, 1, false, 0⟩ := by
  decide +kernel

theorem witness_FromStringEncodesTheScan :
    IsSignText [] false ∧ (∀ ch ∈ ([0x35, 0x2E] : List Byte).head?, ch ≠ 0x2B ∧ ch ≠ 0x2D) ∧
    IsSignText [0x2D] true ∧
    isToken 0x6E 0x61 0x6E [0x35, 0x2E] = false ∧ isToken 0x69 0x6E 0x66 [0x35, 0x2E] = false ∧
    scan Parser.init [0x35, 0x2E] = ⟨.frac, 5, 1, 0, false, 0⟩ := by
  unfold IsSignText; decide +kernel

/-- The literal "-1234567890123456.e+10" and one without point and exponent. -/
theorem witness_DecimalLiteralsParseExactly :
    IsSignText [0x2D] true ∧ IsSignText [0x2B] false ∧ IsSignText [] false ∧
    (∀ d ∈ [1, 2, 3, 4, 5, 6, 7, 8, 9, 0, 1, 2, 3, 4, 5, 6] ++ [] ++ [1, 0], d < 10) ∧
    [1, 2, 3, 4, 5, 6, 7, 8, 9, 0, 1, 2, 3, 4, 5, 6].length + ([] : List Nat).length ≤ 16 := by
  unfold IsSignText; decide

/-- The literal "+0.01234567890123456789E-9": two leading zeros, so eighteen positions are taken. -/
theorem witness_DigitsBeyondSixteenAreDropped :
    IsSignText [0x2B] false ∧ IsSignText [0x2D] true ∧
    (∀ d ∈ [0] ++ [0, 1, 2, 3, 4, 5, 6, 7, 8, 9, 0, 1, 2, 3, 4, 5, 6, 7, 8, 9] ++ [9], d < 10) ∧
    18 = min ((([0] ++ [0, 1, 2, 3, 4, 5, 6, 7, 8, 9, 0, 1, 2, 3, 4, 5, 6, 7, 8, 9]).takeWhile
      (· == 0)).length + 16)
      ([0] ++ [0, 1, 2, 3, 4, 5, 6, 7, 8, 9, 0, 1, 2, 3, 4, 5, 6, 7, 8, 9]).length := by
  unfold IsSignText; decide

theorem witness_ToStringPrintsScientificNotation :
    classify 0xFC00000000000000 = .nan ∧ classify 0xF800000000000000 = .inf ∧
    classify 0xDFE0000000000000 = .finite ∧
    unpack defaultParams 0xDFE0000000000000 = ⟨true, 0, 369⟩ ∧
    classify 0x5FE000000000000A = .finite ∧
    unpack defaultParams 0x5FE000000000000A = ⟨false, 10, 369⟩ := by decide +kernel

theorem witness_TextLengthBounds :
    isFinite 0x5FFFFFFFFFFFFFFF = true ∧ isLargeForm 0x5FFFFFFFFFFFFFFF = false := by decide

theorem witness_PrintedTextParsesBack :
    (StandardFinite 0xB16000000001E240 ∧
      (unpack defaultParams 0xB16000000001E240).c % 10 ≠ 0) ∧
    isFinite 0xFC00000000000000 = false ∧
    (isFinite 0xDFE0000000000000 = true ∧ (unpack defaultParams 0xDFE0000000000000).c = 0) ∧
    (StandardFinite 0x5FC000000000000A ∧
      unpack defaultParams 0x5FC000000000000A = ⟨false, 1 * 10 ^ 1, 368⟩ ∧
      1 % 10 ≠ 0 ∧ (368 : Int) + 1 ≤ 369) := by
  unfold StandardFinite; decide +kernel

end Sys2Proof.Tests
end

section
/-! The idle step and the state right after reset. -/

namespace Sys2Proof.Machine

@[simp] theorem State.reset_params : State.reset.params = defaultParams := rfl
@[simp] theorem State.reset_resetAsserted : State.reset.resetAsserted = false := rfl
@[simp] theorem State.reset_requests : State.reset.requests = [] := rfl
@[simp] theorem State.reset_responses : State.reset.responses = [] := rfl

/-- The idle step (R27, log entry 3). -/
theorem step_eq_next_self_of_idle {s : State} (hreset : s.resetAsserted = false)
    (hreq : s.requests = []) : step s = .next s := by
  simp [step, hreset, hreq]

/-- Settles O10: the fields are those of `State.reset`, and it is one of the states the idle step
leaves alone. -/
theorem resetStateIsIdle : Obligations.ResetStateIsIdle := by
  have hidle : step State.reset = .next State.reset :=
    step_eq_next_self_of_idle State.reset_resetAsserted State.reset_requests
  simp [Obligations.ResetStateIsIdle, defaultParams, hidle]

end Sys2Proof.Machine
end

section
/-! What every response satisfies: ranges of an unpacked word, the formatter's texts, and the three
forms of an answer. -/

namespace Sys2Proof.Machine

open Laws

/-! ### The ranges of an unpacked word -/

/-- R31: the top five bits below the sign are neither `11110` nor `11111`. -/
theorem slice_62_58_lt_of_isFinite {v : Word} (h : isFinite v = true) : slice v 62 58 < 30 := by
  have hlt : slice v 62 58 < 32 := slice_lt v 62 58
  have hfin : classify v = .finite := of_decide_eq_true h
  unfold classify at hfin
  split at hfin
  · contradiction
  · split at hfin
    · contradiction
    · omega

theorem unpack_of_isLargeForm {v : Word} (p : Params) (h : isLargeForm v = true) :
    unpack p v = ⟨signBit v, largeBit + slice v 50 0, (largeBiased p v : Int) - bias⟩ :=
  if_pos h

theorem unpack_of_not_isLargeForm {v : Word} (p : Params) (h : isLargeForm v = false) :
    unpack p v = ⟨signBit v, slice v 52 0, (slice v 62 53 : Int) - bias⟩ :=
  if_neg (by simp [h])

/-- R33: a finite large-form word has bits 60 to 59 at most `10`, whichever way its exponent is
assembled. -/
theorem largeBiased_le {v : Word} (p : Params) (hfin : isFinite v = true)
    (hlarge : isLargeForm v = true) : largeBiased p v ≤ 767 := by
  have htop : slice v 62 58 < 30 := slice_62_58_lt_of_isFinite hfin
  have hform : slice v 62 61 = 3 := of_decide_eq_true hlarge
  have hhigh : slice v 60 59 ≤ 2 := by simp only [slice_eq] at htop hform ⊢; omega
  cases hread : p.largeExp with
  | split =>
    have hlow : slice v 51 44 < 2 ^ 8 := slice_lt v 51 44
    simp only [largeBiased, hread]
    omega
  | contig =>
    simp only [largeBiased, hread, slice_eq] at hhigh ⊢
    omega

/-- R32: a standard-form word has bits 62 to 61 below `11`. -/
theorem slice_62_53_le {v : Word} (hsmall : isLargeForm v = false) : slice v 62 53 ≤ 767 := by
  have hform : slice v 62 61 ≠ 3 := of_decide_eq_false hsmall
  simp only [slice_eq] at hform ⊢
  omega

/-- R51: a finite word's exponent is in the format's range. -/
theorem unpack_e_range {v : Word} (p : Params) (hfin : isFinite v = true) :
    eMin ≤ (unpack p v).e ∧ (unpack p v).e ≤ eMax := by
  cases hform : isLargeForm v with
  | true =>
    have hb : largeBiased p v ≤ 767 := largeBiased_le p hfin hform
    simp only [unpack_of_isLargeForm p hform, bias, eMin, eMax]
    omega
  | false =>
    have hb : slice v 62 53 ≤ 767 := slice_62_53_le hform
    simp only [unpack_of_not_isLargeForm p hform, bias, eMin, eMax]
    omega

/-- R51: no coefficient has more than 17 digits. -/
theorem unpack_c_lt (p : Params) (v : Word) : (unpack p v).c < 10 ^ 17 := by
  cases hform : isLargeForm v with
  | true =>
    have hc : slice v 50 0 < 2 ^ 51 := slice_lt v 50 0
    simp only [unpack_of_isLargeForm p hform, largeBit]
    omega
  | false =>
    have hc : slice v 52 0 < 2 ^ 53 := slice_lt v 52 0
    simp only [unpack_of_not_isLargeForm p hform]
    omega

/-! ### The formatter's texts -/

theorem isDigit_digitCode {d : Nat} (h : d < 10) : isDigit (digitCode d) = true := by
  revert d; decide

theorem isDigit_of_mem_digits {n : Nat} : ∀ ch ∈ digits n, isDigit ch = true := by
  induction n using Nat.strongRecOn with
  | ind n ih =>
    rw [digits_eq]
    split
    next hn => simpa using isDigit_digitCode hn
    next hn =>
      intro ch hch
      rcases List.mem_append.1 hch with hhead | hlast
      · exact ih (n / 10) (by omega) ch hhead
      · obtain rfl := List.mem_singleton.1 hlast
        exact isDigit_digitCode (Nat.mod_lt n (by decide))

theorem digits_length_pos (n : Nat) : 0 < (digits n).length := by
  rw [digits_eq]; split <;> simp

theorem digits_length_le {k n : Nat} (h : n < 10 ^ (k + 1)) : (digits n).length ≤ k + 1 := by
  induction k generalizing n with
  | zero => rw [digits_eq, if_pos (by simpa using h)]; simp
  | succ k ih =>
    have hdiv : n / 10 < 10 ^ (k + 1) := by rw [pow_succ] at h; omega
    rw [digits_eq]
    split
    · simp
    · simpa using ih hdiv

theorem stripZeros_sublist (d : List Byte) : (stripZeros d).Sublist d := by
  simpa [stripZeros] using (List.dropWhile_sublist (l := d.reverse) (· == 0x30)).reverse

theorem mantissaText_length_le (d : List Byte) : (mantissaText d).length ≤ d.length + 1 := by
  rcases d with _ | ⟨x, _ | ⟨y, ds⟩⟩ <;> simp [mantissaText]

theorem mem_mantissaText {d : List Byte} {ch : Byte} (h : ch ∈ mantissaText d) :
    ch = 0x2E ∨ ch ∈ d := by
  rcases d with _ | ⟨x, _ | ⟨y, ds⟩⟩
  · exact .inr h
  · exact .inr h
  · simp only [mantissaText, List.mem_cons] at h ⊢
    tauto

theorem isFormatterByte_of_isDigit {ch : Byte} (h : isDigit ch = true) :
    isFormatterByte ch = true := by
  simp [isFormatterByte, h]

theorem isFormatterByte_signCode (neg : Bool) : isFormatterByte (signCode neg) = true := by
  cases neg <;> decide

/-- R98, R40: sign, mantissa, `E`, sign and exponent are all of the formatter's characters. -/
theorem isFormatterByte_of_mem_finiteText {u : Unpacked} {ch : Byte} (h : ch ∈ finiteText u) :
    isFormatterByte ch = true := by
  simp only [finiteText, List.cons_append, List.mem_cons, List.mem_append] at h
  rcases h with rfl | hmant | rfl | rfl | hexp
  · exact isFormatterByte_signCode _
  · rcases mem_mantissaText hmant with rfl | hdig
    · decide
    · exact isFormatterByte_of_isDigit
        (isDigit_of_mem_digits ch ((stripZeros_sublist _).subset hdig))
  · decide
  · exact isFormatterByte_signCode _
  · exact isFormatterByte_of_isDigit (isDigit_of_mem_digits ch hexp)

/-- R100: with at most 17 coefficient digits and an exponent of the format, the printed exponent has
at most three digits, so the text has at most 1 + (17 + 1) + 1 + 1 + 3 bytes. -/
theorem finiteText_length {u : Unpacked} (hc : u.c < 10 ^ 17) (hlo : eMin ≤ u.e)
    (hhi : u.e ≤ eMax) : 4 ≤ (finiteText u).length ∧ (finiteText u).length ≤ 24 := by
  have hcoef : (digits u.c).length ≤ 17 := digits_length_le hc
  have hcoefPos : 0 < (digits u.c).length := digits_length_pos u.c
  have hmant : (mantissaText (stripZeros (digits u.c))).length ≤ (digits u.c).length + 1 :=
    (mantissaText_length_le _).trans (Nat.succ_le_succ (stripZeros_sublist _).length_le)
  have hadj : (u.e + (((digits u.c).length : Int) - 1)).natAbs < 10 ^ 3 := by
    simp only [eMin, eMax] at hlo hhi
    omega
  have hexp := digits_length_le hadj
  have hexpPos := digits_length_pos (u.e + (((digits u.c).length : Int) - 1)).natAbs
  simp only [finiteText, List.cons_append, List.length_cons, List.length_append]
  omega

/-- R100: the length of every text. -/
theorem formatText_length (p : Params) (v : Word) :
    4 ≤ (formatText p v).length ∧ (formatText p v).length ≤ 24 := by
  unfold formatText
  cases hclass : classify v with
  | nan => simp
  | inf => simp
  | finite =>
    obtain ⟨hlo, hhi⟩ := unpack_e_range p (v := v) (by simp [isFinite, hclass])
    by_cases hzero : (unpack p v).c = 0
    · simp [hzero]
    · simpa [hzero] using finiteText_length (unpack_c_lt p v) hlo hhi

/-- R40: the characters of every text. -/
theorem isFormatterByte_of_mem_formatText {p : Params} {v : Word} {ch : Byte}
    (h : ch ∈ formatText p v) : isFormatterByte ch = true := by
  unfold formatText at h
  cases hclass : classify v with
  | nan =>
    simp only [hclass, List.mem_cons, List.not_mem_nil, or_false] at h
    rcases h with rfl | rfl | rfl | rfl <;> decide
  | inf =>
    simp only [hclass, List.mem_cons, List.not_mem_nil, or_false] at h
    rcases h with rfl | rfl | rfl | rfl
    · exact isFormatterByte_signCode _
    all_goals decide
  | finite =>
    by_cases hzero : (unpack p v).c = 0
    · simp only [hclass, hzero, if_true, List.mem_cons, List.not_mem_nil, or_false] at h
      rcases h with rfl | rfl | rfl | rfl | rfl
      · exact isFormatterByte_signCode _
      all_goals decide
    · simp only [hclass, hzero, if_false] at h
      exact isFormatterByte_of_mem_finiteText h

/-! ### Every answer is well formed -/

theorem toInt_ofInt_of_exponent_range {e : Int} (hlo : eMin ≤ e) (hhi : e ≤ eMax) :
    (BitVec.ofInt 32 e).toInt = e := by
  simp only [eMin, eMax] at hlo hhi
  rw [BitVec.toInt_ofInt]
  exact Int.bmod_eq_of_le (by omega) (by omega)

theorem decodeResponse_of_isFinite {v : Word} (p : Params) (h : isFinite v = true) :
    decodeResponse p v = { Response.blank with
      rNonfinite := false, rSgn := (unpack p v).s, r := BitVec.ofNat 64 (unpack p v).c,
      rExp := BitVec.ofInt 32 (unpack p v).e } :=
  if_pos h

theorem decodeResponse_of_not_isFinite {v : Word} (p : Params) (h : isFinite v = false) :
    decodeResponse p v = { Response.blank with rNonfinite := true, rSgn := signBit v } :=
  if_neg (by simp [h])

@[simp] theorem decodeResponse_rtxtLen (p : Params) (v : Word) :
    (decodeResponse p v).rtxtLen = 0 := by
  unfold decodeResponse; split <;> rfl

@[simp] theorem decodeResponse_rtxt (p : Params) (v : Word) :
    (decodeResponse p v).rtxt = Vector.replicate txtOutMax 0 := by
  unfold decodeResponse; split <;> rfl

@[simp] theorem decodeResponse_flags (p : Params) (v : Word) :
    (decodeResponse p v).flags = flagsNone := by
  unfold decodeResponse; split <;> rfl

/-- The fields that only TO_STRING produces are well formed when they are all zero. -/
theorem Response.WellFormed.of_no_text {rsp : Response} (hflags : rsp.flags = flagsNone)
    (hexp : -398 ≤ rsp.rExp.toInt ∧ rsp.rExp.toInt ≤ 369)
    (hnonfinite : rsp.rNonfinite = true → rsp.r = 0 ∧ rsp.rExp = 0)
    (hlen : rsp.rtxtLen = 0) (htxt : rsp.rtxt = Vector.replicate txtOutMax 0) :
    rsp.WellFormed where
  flags_none := hflags
  exponent_range := hexp
  nonfinite_zero := hnonfinite
  text_length := .inl hlen
  text_ascii i _ hi := by simp [hlen] at hi
  text_padding i _ _ := by simp [htxt]

theorem value_wellFormed (v : Word) : (Response.value v).WellFormed :=
  .of_no_text (by simp) (by simp) (by simp) (by simp) (by simp)

theorem decodeResponse_wellFormed (p : Params) (v : Word) : (decodeResponse p v).WellFormed := by
  cases hfin : isFinite v with
  | true =>
    obtain ⟨hlo, hhi⟩ := unpack_e_range p hfin
    refine .of_no_text (by simp) ?_ ?_ (by simp) (by simp)
    · rw [decodeResponse_of_isFinite p hfin]
      simpa [toInt_ofInt_of_exponent_range hlo hhi] using ⟨hlo, hhi⟩
    · simp [decodeResponse_of_isFinite p hfin]
  | false =>
    refine .of_no_text (by simp) ?_ ?_ (by simp) (by simp) <;>
      simp [decodeResponse_of_not_isFinite p hfin]

/-- A text of 4 to 24 formatter characters makes a well-formed response: its length is not cut by
the five bits of `rtxt_len`. -/
theorem textResponse_wellFormed {t : List Byte} (hlo : 4 ≤ t.length) (hhi : t.length ≤ 24)
    (hchars : ∀ ch ∈ t, isFormatterByte ch = true) : (textResponse t).WellFormed := by
  have hlen : (textResponse t).rtxtLen.toNat = t.length := by
    simp only [textResponse_rtxtLen, BitVec.toNat_ofNat]; omega
  exact {
    flags_none := textResponse_flags t
    exponent_range := by simp
    nonfinite_zero := by simp
    text_length := .inr (by simpa only [hlen] using ⟨hlo, hhi, textResponse_r t⟩)
    text_ascii := fun i h hi => by
      rw [hlen] at hi
      rw [textResponse_rtxt_get, List.getD_eq_getElem _ _ hi]
      exact hchars _ (List.getElem_mem hi)
    text_padding := fun i h hi => by
      rw [hlen] at hi
      rw [textResponse_rtxt_get, List.getD_eq_default _ _ hi] }

/-- The three forms an answer has: `r` alone, DECODE's fields, or TO_STRING's text. -/
theorem answer_cases (p : Params) (i : Instr) :
    ((∀ a, i ≠ .decode a) ∧ (∀ a, i ≠ .toString a) ∧ ∃ v, answer p i = Response.value v) ∨
    (∃ a, i = .decode a ∧ answer p i = decodeResponse p a) ∨
    (∃ a, i = .toString a ∧ answer p i = textResponse (formatText p a)) := by
  cases i <;> simp [answer]

theorem answer_wellFormed (p : Params) (i : Instr) : (answer p i).WellFormed := by
  rcases answer_cases p i with ⟨-, -, v, h⟩ | ⟨a, -, h⟩ | ⟨a, -, h⟩ <;> rw [h]
  · exact value_wellFormed v
  · exact decodeResponse_wellFormed p a
  · obtain ⟨hlo, hhi⟩ := formatText_length p a
    exact textResponse_wellFormed hlo hhi fun _ => isFormatterByte_of_mem_formatText

/-! ### What a step adds to the responses -/

/-- A step that goes on sends nothing or the answer of one operation. -/
theorem responses_of_step_eq_next {s t : State} (h : step s = .next t) :
    t.responses = s.responses ∨ ∃ i, t.responses = s.responses ++ [answer s.params i] := by
  rcases step_cases s with
    ⟨-, hs⟩ | ⟨-, -, hs⟩ | ⟨_, _, _, -, -, -, hs⟩ | ⟨_, rest, i, -, -, -, hs⟩ <;>
    rw [hs] at h <;> cases h
  · exact .inl rfl
  · exact .inl rfl
  · exact .inr ⟨i, rfl⟩

/-- Every response after a step was there before it or is the answer of an operation. -/
theorem mem_responses_of_step_eq_next {s t : State} (h : step s = .next t) {rsp : Response}
    (hmem : rsp ∈ t.responses) : rsp ∈ s.responses ∨ ∃ i, rsp = answer s.params i := by
  rcases responses_of_step_eq_next h with hsame | ⟨i, hsent⟩
  · exact .inl (hsame ▸ hmem)
  · simp only [hsent, List.mem_append, List.mem_singleton] at hmem
    exact hmem.imp_right fun hi => ⟨i, hi⟩

/-- Settles O15: the one response a step may add is the answer of an operation, and every answer is
well formed. -/
theorem responsesStayWellFormed : Obligations.ResponsesStayWellFormed := by
  intro s t hinv hstep rsp hmem
  rcases mem_responses_of_step_eq_next hstep hmem with hold | ⟨i, rfl⟩
  · exact hinv rsp hold
  · exact answer_wellFormed s.params i

/-- Settles O16: no response is recorded after reset (log entry 14). -/
theorem responsesWellFormedAtReset : Obligations.ResponsesWellFormedAtReset := by
  intro rsp hmem
  simp at hmem

end Sys2Proof.Machine
end

section
/-! Requests: what decides their instruction, and the step that runs it. -/

namespace Sys2Proof

open Machine

/-! ### The valid bytes of a text -/

@[simp] theorem Request.text_length (q : Request) : q.text.length = q.txtLen := by
  simp only [Request.text, List.length_append, List.length_take, List.length_replicate]
  omega

/-- A valid byte of the text is the byte of the array, 0x00 past the list's end (log entry 7). -/
theorem Request.text_getElem (q : Request) {i : Nat} (h : i < q.text.length) :
    q.text[i] = q.txt.getD i 0x00 := by
  have hlen : i < q.txtLen := q.text_length ▸ h
  simp only [Request.text, List.getElem_append, List.length_take, List.getElem_take,
    List.getElem_replicate]
  split
  next hin => rw [List.getD_eq_getElem _ _ (by omega)]
  next hout => rw [List.getD_eq_default _ _ (by omega)]

theorem Request.text_eq_iff (q r : Request) :
    q.text = r.text ↔
      q.txtLen = r.txtLen ∧ ∀ i < q.txtLen, q.txt.getD i 0x00 = r.txt.getD i 0x00 := by
  simp only [List.ext_getElem_iff, Request.text_length, Request.text_getElem]
  exact and_congr_right fun hlen => forall_congr' fun i =>
    ⟨fun h hi => h hi (hlen ▸ hi), fun h hi _ => h hi⟩

/-! ### The decoder -/

/-- R117: the host's obligations. -/
theorem Request.wf_iff {p : Params} {q : Request} :
    q.wf p = true ↔ q.op.toNat ≤ 9 ∧ admitsLength p q.txtLen = true := by
  simp [Request.wf]

theorem op_cases_of_le_nine {op : BitVec 4} (h : op.toNat ≤ 9) :
    op = 0 ∨ op = 1 ∨ op = 2 ∨ op = 3 ∨ op = 4 ∨ op = 5 ∨ op = 6 ∨ op = 7 ∨ op = 8 ∨ op = 9 := by
  revert op; decide

theorem exists_decode_eq_ok {q : Request} (hq : q.op.toNat ≤ 9) : ∃ i, decode q = .ok i := by
  rcases op_cases_of_le_nine hq with h | h | h | h | h | h | h | h | h | h <;> simp [decode, h]

/-- R42: an instruction comes from a request with its operation number. -/
theorem op_eq_of_decode_eq_ok {q : Request} {i : Instr} (h : decode q = .ok i) :
    q.op = (encode i).op := by
  unfold decode at h
  split at h <;> cases h <;> exact BitVec.eq_of_toNat_eq ‹_›

/-- R13, R45: for one operation, the instructions are the same exactly when the fields it reads
are. -/
theorem decode_eq_iff_of_op_eq {q r : Request} (hop : q.op = r.op) (hq : q.op.toNat ≤ 9) :
    decode q = decode r ↔ UsedFieldsAgree q r := by
  rcases op_cases_of_le_nine hq with h | h | h | h | h | h | h | h | h | h <;>
    simp [decode, UsedFieldsAgree, ← hop, h, Request.text_eq_iff]

/-- Settles O2: the instruction determines the operation, and for one operation the fields it
reads. -/
theorem decodesAlikeExactlyOnUsedFields : Obligations.DecodesAlikeExactlyOnUsedFields := by
  intro q r hq
  constructor
  · intro h
    obtain ⟨i, hi⟩ := exists_decode_eq_ok hq
    have hop : q.op = r.op :=
      (op_eq_of_decode_eq_ok hi).trans (op_eq_of_decode_eq_ok (h ▸ hi)).symm
    exact (decode_eq_iff_of_op_eq hop hq).1 h
  · intro h
    exact (decode_eq_iff_of_op_eq h.1 hq).2 h

end Sys2Proof

namespace Sys2Proof.Machine

open Laws

/-! ### The step of a legal request -/

/-- The host's obligations are enough for a request to be fetched (R117). -/
theorem fetch_eq_ok_of_wf {p : Params} {q : Request} {i : Instr} (hwf : q.wf p = true)
    (hdecode : decode q = .ok i) : fetch p q = .ok i :=
  (fetch_ok_iff p q i).2 ⟨hdecode, (Request.wf_iff.1 hwf).2⟩

theorem exists_fetch_eq_ok_of_wf {p : Params} {q : Request} (hwf : q.wf p = true) :
    ∃ i, fetch p q = .ok i :=
  (exists_decode_eq_ok (Request.wf_iff.1 hwf).1).imp fun _ => fetch_eq_ok_of_wf hwf

/-- R13: the fetch drops the fields that the operation does not use. -/
theorem fetch_eq_of_usedFieldsAgree {p : Params} {q r : Request} (hq : q.wf p = true)
    (hr : r.wf p = true) (h : UsedFieldsAgree q r) : fetch p q = fetch p r := by
  obtain ⟨i, hi⟩ := exists_decode_eq_ok (Request.wf_iff.1 hq).1
  have hsame : decode q = decode r :=
    (decode_eq_iff_of_op_eq h.1 (Request.wf_iff.1 hq).1).2 h
  rw [fetch_eq_ok_of_wf hq hi, fetch_eq_ok_of_wf hr (hsame ▸ hi)]

/-- R10: the step that answers the oldest request. -/
theorem step_eq_exec_of_fetch {s : State} {req : Request} {rest : List Request} {i : Instr}
    (hreset : s.resetAsserted = false) (hreq : s.requests = req :: rest)
    (hfetch : fetch s.params req = .ok i) : step s = exec i { s with requests := rest } := by
  simp [step, hreset, hreq, hfetch]

/-- Settles O4: a step looks at the oldest request through its fetch alone, or, when reset acts, not
at all. -/
theorem unusedFieldsHaveNoEffect : Obligations.UnusedFieldsHaveNoEffect := by
  intro s rest q r hagree hq hr
  by_cases hreset : s.resetAsserted = true
  · simp [step, hreset, State.actOnReset]
  · rw [Bool.not_eq_true] at hreset
    obtain ⟨i, hi⟩ := exists_fetch_eq_ok_of_wf hq
    have hi' : fetch s.params r = .ok i := fetch_eq_of_usedFieldsAgree hq hr hagree ▸ hi
    rw [step_eq_exec_of_fetch (s := { s with requests := q :: rest }) hreset rfl hi,
      step_eq_exec_of_fetch (s := { s with requests := r :: rest }) hreset rfl hi']

/-- A table word asks for no text, so every capacity admits its request. -/
theorem fetch_requestOfTableWord {p : Params} {nbits w : Nat} {i : Instr}
    (h : decodeTableWord nbits w = some i) : fetch p (requestOfTableWord w) = .ok i := by
  have hlen : admitsLength p 0 = true := by unfold admitsLength; split <;> simp
  refine (fetch_ok_iff p _ i).2 ⟨?_, hlen⟩
  unfold decodeTableWord at h
  split at h
  next j hj => rw [hj, Option.some.inj h]
  next => contradiction

/-- Settles O5: both requests are fetched, the first because it is legal, the second because it asks
for no text. -/
theorem stepRunsTheDecodedInstruction : Obligations.StepRunsTheDecodedInstruction := by
  constructor
  · intro s req rest i hreset hreq hwf hdecode
    exact step_eq_exec_of_fetch hreset hreq (fetch_eq_ok_of_wf hwf hdecode)
  · intro s nbits w i hword
    exact step_eq_exec_of_fetch (s := s.withFetchWord nbits w) (by simp) (by simp)
      (fetch_requestOfTableWord hword)

end Sys2Proof.Machine
end

section
/-! The answers: their fields, and the run that sends them in order. -/

namespace Sys2Proof.Machine

open Laws

/-! ### One operation -/

/-- Settles O12: every operation is `State.respond` with its answer. -/
theorem operationsSendOneResponseAndNothingElse :
    Obligations.OperationsSendOneResponseAndNothingElse := by
  intro i s
  refine ⟨s.respond (answer s.params i), answer s.params i, exec_eq_respond i s, by simp, by simp,
    by simp, by simp, fun s' hparams => ?_⟩
  exact ⟨s'.respond (answer s.params i), hparams ▸ exec_eq_respond i s', by simp⟩

/-- R14: only DECODE produces `r_sgn`, `r_exp` and `r_nonfinite`. -/
theorem answer_decode_fields_of_ne_decode (p : Params) {i : Instr} (h : ∀ a, i ≠ .decode a) :
    (answer p i).rSgn = false ∧ (answer p i).rExp = 0 ∧ (answer p i).rNonfinite = false := by
  rcases answer_cases p i with ⟨-, -, v, hv⟩ | ⟨a, ha, -⟩ | ⟨a, -, ht⟩
  · simp [hv]
  · exact absurd ha (h a)
  · simp [ht]

/-- R14: only TO_STRING produces a text. -/
theorem answer_rtxtLen_of_ne_toString (p : Params) {i : Instr} (h : ∀ a, i ≠ .toString a) :
    (answer p i).rtxtLen = 0 := by
  rcases answer_cases p i with ⟨-, -, v, hv⟩ | ⟨a, -, hd⟩ | ⟨a, ha, -⟩
  · simp [hv]
  · simp [hd]
  · exact absurd ha (h a)

/-- Settles O13: the bytes past the text are 0x00 in every well-formed response, all of them when
there is no text. -/
theorem unproducedFieldsAreZero : Obligations.UnproducedFieldsAreZero := by
  intro i s
  have hpad := (answer_wellFormed s.params i).text_padding
  refine ⟨answer s.params i, exec_eq_respond i s, answer_decode_fields_of_ne_decode s.params,
    fun hne => ?_, ?_⟩
  · have hlen := answer_rtxtLen_of_ne_toString s.params hne
    exact ⟨hlen, fun j hj => hpad j hj (by simp [hlen])⟩
  · rintro ⟨a, rfl⟩
    exact ⟨textResponse_r _, hpad⟩

/-- Settles O14: every answer is well formed, and a step sends nothing but answers. -/
theorem flagsAreAlwaysNone : Obligations.FlagsAreAlwaysNone := by
  refine ⟨fun i s => ⟨_, exec_eq_respond i s, (answer_wellFormed s.params i).flags_none⟩, ?_⟩
  intro s t hstep rsp hmem
  rcases mem_responses_of_step_eq_next hstep hmem with hold | ⟨i, rfl⟩
  · exact .inl hold
  · exact .inr (answer_wellFormed s.params i).flags_none

/-! ### A run over legal requests -/

/-- The response to a request, as a function of the parameters and the request alone; a request
that has no meaning gets none in a run, and the blank one here. -/
def answerTo (p : Params) (q : Request) : Response :=
  match fetch p q with
  | .ok i => answer p i
  | .error _ => Response.blank

theorem answerTo_of_fetch {p : Params} {q : Request} {i : Instr} (h : fetch p q = .ok i) :
    answerTo p q = answer p i := by
  simp [answerTo, h]

theorem answerTo_eq_of_usedFieldsAgree {p : Params} {q r : Request} (hq : q.wf p = true)
    (hr : r.wf p = true) (h : UsedFieldsAgree q r) : answerTo p q = answerTo p r := by
  simp only [answerTo, fetch_eq_of_usedFieldsAgree hq hr h]

/-- The step of a legal request sends its answer and takes the request off. -/
theorem step_eq_respond_answerTo {s : State} {req : Request} {rest : List Request}
    (hreset : s.resetAsserted = false) (hreq : s.requests = req :: rest)
    (hwf : req.wf s.params = true) :
    step s = .next (({ s with requests := rest } : State).respond (answerTo s.params req)) := by
  obtain ⟨i, hi⟩ := exists_fetch_eq_ok_of_wf hwf
  rw [step_eq_exec_of_fetch hreset hreq hi, exec_eq_respond, answerTo_of_fetch hi]

theorem run_succ_of_step_eq_next {s t : State} (n : Nat) (h : step s = .next t) :
    core.run (n + 1) s = core.run n t := by
  have hcore : core.step s = .next t := h
  simp only [Host.Core.run, hcore]

/-- R27: a run as long as the list of legal requests answers them all, in order. -/
theorem run_answers_requests (requests : List Request) (s : State)
    (hreset : s.resetAsserted = false) (hreq : s.requests = requests)
    (hwf : ∀ req ∈ requests, req.wf s.params = true) :
    core.run requests.length s = .next { s with
      requests := []
      responses := s.responses ++ requests.map (answerTo s.params) } := by
  induction requests generalizing s with
  | nil =>
    obtain ⟨params, reset, reqs, rsps⟩ := s
    obtain rfl : reqs = [] := hreq
    simp [Host.Core.run]
  | cons req rest ih =>
    obtain ⟨hfirst, hrest⟩ := List.forall_mem_cons.1 hwf
    have hstep := step_eq_respond_answerTo hreset hreq hfirst
    have hrun :=
      ih (({ s with requests := rest } : State).respond (answerTo s.params req)) hreset rfl hrest
    refine (run_succ_of_step_eq_next _ hstep).trans (hrun.trans ?_)
    simp

/-- Settles O11: the function is `answerTo`, which sees a request through its fetch alone. -/
theorem responsesComeInRequestOrder : Obligations.ResponsesComeInRequestOrder :=
  ⟨answerTo, fun _ _ _ => answerTo_eq_of_usedFieldsAgree,
    fun s hreset hadm => run_answers_requests s.requests s hreset rfl hadm⟩

end Sys2Proof.Machine
end

section
/-! Which steps go on: reset, the idle step, and the answer to a legal request. -/

namespace Sys2Proof.Machine

open Laws

/-- Settles O8: it is the idle step. -/
theorem noResponseWithoutARequest : Obligations.NoResponseWithoutARequest :=
  fun _ => step_eq_next_self_of_idle

/-- R42, R43: a request that decodes has none of the reserved operation numbers. -/
theorem op_le_nine_of_decode_eq_ok {q : Request} {i : Instr} (h : decode q = .ok i) :
    q.op.toNat ≤ 9 := by
  rw [op_eq_of_decode_eq_ok h]
  cases i <;> simp [encode, Request.ofOp]

/-- R117: the host's obligations are exactly what the fetch of a request asks for. -/
theorem wf_iff_exists_fetch_eq_ok {p : Params} {q : Request} :
    q.wf p = true ↔ ∃ i, fetch p q = .ok i := by
  refine ⟨exists_fetch_eq_ok_of_wf, ?_⟩
  rintro ⟨i, hi⟩
  obtain ⟨hdecode, hlen⟩ := (fetch_ok_iff p q i).1 hi
  exact Request.wf_iff.2 ⟨op_le_nine_of_decode_eq_ok hdecode, hlen⟩

/-- Settles O7: there is no fault to stop with, and of the four things a step can do only the
refusal, whose request is not fetched, does not go on. -/
theorem onlyIllegalRequestsStopTheBlock : Obligations.OnlyIllegalRequestsStopTheBlock := by
  intro s
  refine ⟨nofun, ?_⟩
  rcases step_cases s with ⟨hreset, hs⟩ | ⟨-, hreq, hs⟩ |
    ⟨req, rest, r, hreset, hreq, hfetch, hs⟩ | ⟨req, rest, i, -, hreq, hfetch, hs⟩
  · simp [hs, hreset]
  · simp [hs, hreq]
  · simp [hs, hreset, hreq, wf_iff_exists_fetch_eq_ok, hfetch]
  · simp [hs, hreq, wf_iff_exists_fetch_eq_ok, hfetch]

end Sys2Proof.Machine
end

section
/-! The parser up to a NUL: the sign, the tokens and the scan do not see past it. -/

namespace Sys2Proof.Machine

open Laws

/-- R91: a token is the start of the text in lower case. -/
theorem isToken_iff_prefix {x y z : Byte} {t : List Byte} :
    isToken x y z t = true ↔ [x, y, z] <+: t.map lower := by
  unfold isToken
  split
  next => simp [@eq_comm _ x, @eq_comm _ y, @eq_comm _ z, and_assoc]
  next hshort =>
    refine iff_of_false Bool.false_ne_true fun h => ?_
    have hlen := h.length_le
    match t, hlen with
    | t₀ :: t₁ :: t₂ :: rest, _ => exact hshort t₀ t₁ t₂ rest rfl

/-- A prefix without the element b ends before b. -/
theorem prefix_append_cons_iff_of_notMem {α : Type} {p l m : List α} {b : α} (hb : b ∉ p) :
    p <+: l ++ b :: m ↔ p <+: l := by
  induction p generalizing l with
  | nil => simp
  | cons a p ih =>
    obtain ⟨hne, hp⟩ := List.ne_and_not_mem_of_not_mem_cons hb
    cases l with
    | nil => simp [hne.symm]
    | cons c l => simp [ih hp]

/-- R91, R96 (f): the letters of a token stand before the NUL. -/
theorem isToken_append_nul {x y z : Byte} (h : 0x00 ∉ [x, y, z]) (before after : List Byte) :
    isToken x y z (before ++ 0x00 :: after) = isToken x y z before := by
  have hnul : lower 0x00 = 0x00 := by decide
  rw [Bool.eq_iff_iff, isToken_iff_prefix, isToken_iff_prefix, List.map_append, List.map_cons,
    hnul, prefix_append_cons_iff_of_notMem h]

/-- R91: a NUL is no sign character. -/
theorem takeSign_append_nul (before after : List Byte) :
    takeSign (before ++ 0x00 :: after) =
      ((takeSign before).1, (takeSign before).2 ++ 0x00 :: after) := by
  cases before with
  | nil => simp [takeSign]
  | cons ch rest =>
    simp only [List.cons_append, takeSign]
    split_ifs <;> rfl

/-- R92: the scan stops at the NUL. -/
theorem scan_append_nul (q : Parser) (before after : List Byte) :
    scan q (before ++ 0x00 :: after) = scan q before := by
  induction before generalizing q with
  | nil => simp [scan]
  | cons ch rest ih => simp only [List.cons_append, scan, ih]

theorem parseText_append_nul (before after : List Byte) :
    parseText (before ++ 0x00 :: after) = parseText before := by
  simp only [parseText, takeSign_append_nul, scan_append_nul]
  rw [isToken_append_nul (by decide), isToken_append_nul (by decide)]

/-- Settles O52: the answer of FROM_STRING is what the parser reads, the same up to the NUL. -/
theorem nulEndsTheText : Obligations.NulEndsTheText := by
  intro before after s
  simp only [exec_eq_respond, answer, parseText_append_nul]

end Sys2Proof.Machine
end

section
/-! Encoding: the request that carries an instruction, the table words, and the requests without
meaning. -/

namespace Sys2Proof

open Machine

/-- R117 (b): every capacity admits the empty text. -/
@[simp] theorem admitsLength_zero (p : Params) : admitsLength p 0 = true := by
  unfold admitsLength; split <;> simp

/-- R42, R45: decoding undoes encoding, operation by operation. -/
theorem decode_encode (i : Instr) : decode (encode i) = .ok i := by
  cases i with
  | encode sgn coef exp => exact Laws.RoundTrip.encode sgn coef exp
  | decode a => exact Laws.RoundTrip.decode a
  | add a b => exact Laws.RoundTrip.add a b
  | sub a b => exact Laws.RoundTrip.sub a b
  | mul a b => exact Laws.RoundTrip.mul a b
  | div a b => exact Laws.RoundTrip.div a b
  | toDouble a => exact Laws.RoundTrip.toDouble a
  | fromDouble u => exact Laws.RoundTrip.fromDouble u
  | fromString text => exact Laws.RoundTrip.fromString text
  | toString a => exact Laws.RoundTrip.toString a

/-- R117: the operation number is legal, so the text length is what is left to check. -/
theorem wf_encode (p : Params) (i : Instr) : (encode i).wf p = i.wf p := by
  have hop : (encode i).op.toNat ≤ 9 := op_le_nine_of_decode_eq_ok (decode_encode i)
  have hlen : admitsLength p (encode i).txtLen = i.wf p := by
    cases i <;> simp [encode, Request.ofOp, Instr.wf]
  simp [Request.wf, hop, hlen]

/-- Settles O1: the round trip, and the one check that is left of the request's. -/
theorem decodeOfEncodedInstruction : Obligations.DecodeOfEncodedInstruction :=
  fun p i => ⟨decode_encode i, wf_encode p i⟩

/-- Settles O3: each word and each request is decoded. -/
theorem operationMapWords : Obligations.OperationMapWords := by
  unfold Obligations.OperationMapWords
  decide

/-- R43: the reserved operation numbers. -/
theorem decode_eq_error_of_reserved {q : Request} (h : 10 ≤ q.op.toNat) :
    decode q = .error (.reservedOp q.op) := by
  unfold decode
  split
  case h_11 => rfl
  all_goals omega

end Sys2Proof

namespace Sys2Proof.Machine

open Laws

theorem step_eq_refused_of_fetch {s : State} {req : Request} {rest : List Request} {r : Refusal}
    (hreset : s.resetAsserted = false) (hreq : s.requests = req :: rest)
    (hfetch : fetch s.params req = .error r) : step s = .refused r := by
  simp [step, hreset, hreq, hfetch]

theorem fetch_eq_error_of_reserved {p : Params} {q : Request} (h : 10 ≤ q.op.toNat) :
    fetch p q = .error (.reservedOp q.op) := by
  simp [fetch, decode_eq_error_of_reserved h]

theorem fetch_eq_error_of_textTooLong {p : Params} {q : Request} (hop : q.op.toNat ≤ 9)
    (hlen : admitsLength p q.txtLen = false) : fetch p q = .error (.textTooLong q.txtLen) := by
  obtain ⟨i, hi⟩ := exists_decode_eq_ok hop
  simp [fetch, hi, hlen]

/-- Settles O6: the fetch of such a request names what is wrong with it. -/
theorem requestsWithoutMeaningAreRefused : Obligations.RequestsWithoutMeaningAreRefused := by
  intro s req rest hreset hreq
  exact ⟨fun hop => step_eq_refused_of_fetch hreset hreq (fetch_eq_error_of_reserved hop),
    fun hop hlen =>
      step_eq_refused_of_fetch hreset hreq (fetch_eq_error_of_textTooLong hop hlen)⟩

end Sys2Proof.Machine
end

section
/-! Decimal words: the ranges of an unpacked word, the word `Pack` makes, and what `Encode`
answers. -/

namespace Sys2Proof.Machine

open Laws

/-! ### The coefficient of an unpacked word -/

/-- R33: the large-coefficient form adds 51 bits to `LARGE_BIT`. -/
theorem unpack_c_of_isLargeForm {v : Word} (p : Params) (h : isLargeForm v = true) :
    largeBit ≤ (unpack p v).c ∧ (unpack p v).c < largeBit + 2 ^ 51 := by
  have hc : slice v 50 0 < 2 ^ 51 := slice_lt v 50 0
  simp only [unpack_of_isLargeForm p h]
  omega

/-- R32: the standard form has a coefficient of 53 bits. -/
theorem unpack_c_le_of_not_isLargeForm {v : Word} (p : Params) (h : isLargeForm v = false) :
    (unpack p v).c ≤ maxCoef := by
  have hc : slice v 52 0 < 2 ^ 53 := slice_lt v 52 0
  simp only [unpack_of_not_isLargeForm p h, maxCoef]
  omega

/-- Settles O19: the exponent's range holds in both forms, the coefficient's form by form. -/
theorem unpackedOperandsAreInRange : Obligations.UnpackedOperandsAreInRange := by
  intro p v hfin
  obtain ⟨hlo, hhi⟩ := unpack_e_range p hfin
  refine ⟨hlo, hhi, ?_⟩
  cases hform : isLargeForm v with
  | true =>
    have hc := unpack_c_of_isLargeForm p hform
    simp only [largeBit] at hc
    exact ⟨by omega, nofun, fun _ => hc.1⟩
  | false =>
    have hc := unpack_c_le_of_not_isLargeForm p hform
    simp only [maxCoef] at hc
    exact ⟨by omega, fun _ => hc, nofun⟩

/-! ### `Pack` -/

section
variable {c : Nat} {e : Int} (s : Bool) (hc : c ≤ maxCoef) (hlo : eMin ≤ e) (hhi : e ≤ eMax)
include hc hlo hhi

/-- R52: the fields of a packed word. -/
theorem pack_fields : signBit (pack s c e) = s ∧ slice (pack s c e) 62 53 = (e + bias).toNat ∧
    slice (pack s c e) 52 0 = c := by
  rw [signBit_eq, slice_eq, slice_eq, pack_toNat s c e hc hlo hhi]
  simp only [maxCoef, eMin, eMax, bias] at hc hlo hhi ⊢
  have hexp : (e + 398).toNat < 768 := by omega
  cases s with
  | false =>
    rw [if_neg Bool.false_ne_true]
    exact ⟨decide_eq_false (by omega), by omega, by omega⟩
  | true =>
    rw [if_pos rfl]
    exact ⟨decide_eq_true (by omega), by omega, by omega⟩

theorem isLargeForm_pack : isLargeForm (pack s c e) = false := by
  obtain ⟨-, hexp, -⟩ := pack_fields s hc hlo hhi
  simp only [eMin, eMax, bias, slice_eq] at *
  simp only [isLargeForm, slice_eq, decide_eq_false_iff_not]
  omega

theorem isFinite_pack : isFinite (pack s c e) = true := by
  obtain ⟨-, hexp, -⟩ := pack_fields s hc hlo hhi
  simp only [eMin, eMax, bias, slice_eq] at *
  have htop : (pack s c e).toNat / 2 ^ 58 % 2 ^ (62 - 58 + 1) < 24 := by omega
  simp only [isFinite, classify, slice_eq]
  rw [if_neg (by omega), if_neg (by omega), decide_eq_true rfl]

/-- R38, R52: a packed word is a finite one in the standard form. -/
theorem standardFinite_pack : StandardFinite (pack s c e) :=
  ⟨isFinite_pack s hc hlo hhi, isLargeForm_pack s hc hlo hhi⟩

/-- R52: `Unpack` undoes `Pack`, whatever the large form's layout. -/
theorem unpack_pack (p : Params) : unpack p (pack s c e) = ⟨s, c, e⟩ := by
  obtain ⟨hsign, hexp, hcoef⟩ := pack_fields s hc hlo hhi
  rw [unpack_of_not_isLargeForm p (isLargeForm_pack s hc hlo hhi), hsign, hexp, hcoef]
  simp only [eMin, bias] at *
  rw [Int.toNat_of_nonneg (by omega), Int.add_sub_cancel]

end

/-! ### `Encode` -/

theorem clampExp_range (e : Int) : eMin ≤ clampExp e ∧ clampExp e ≤ eMax := by
  simp only [clampExp, eMin, eMax]
  split_ifs <;> omega

theorem clampExp_of_range {e : Int} (hlo : eMin ≤ e) (hhi : e ≤ eMax) : clampExp e = e := by
  rw [clampExp, if_neg (by omega), if_neg (by omega)]

/-- R53 step 2: a coefficient that comes out of it fits. -/
theorem le_maxCoef_of_roundLoop {fuel c c' : Nat} {e e' : Int} (hfuel : c.log2 < fuel)
    (h : roundLoop fuel c e = some (c', e')) : c' ≤ maxCoef := by
  induction fuel generalizing c e with
  | zero => omega
  | succ fuel ih =>
    rw [roundLoop] at h
    split_ifs at h with hfits hmax
    · cases h
      exact hfits
    · have hlog := roundDigit_log2 (c := c) (by omega)
      exact ih (by omega) h

/-- R53 step 3: digits are only dropped. -/
theorem truncLoop_le (fuel c : Nat) (e : Int) : (truncLoop fuel c e).1 ≤ c := by
  induction fuel generalizing c e with
  | zero => exact le_rfl
  | succ fuel ih =>
    rw [truncLoop]
    split
    · exact (ih _ _).trans (Nat.div_le_self c 10)
    · exact le_rfl

/-- R53 step 2 has nothing to do when the coefficient fits. -/
theorem roundLoop_of_le_maxCoef {c : Nat} (hc : c ≤ maxCoef) (e : Int) :
    roundLoop (c.log2 + 1) c e = some (c, e) := by
  rw [roundLoop_eq, if_pos hc]

/-- R54 item 1: `Encode` packs a finite value, or saturates. -/
theorem encode64_cases (s : Bool) (c : Nat) (e : Int) :
    (∃ c' e', c' ≤ maxCoef ∧ eMin ≤ e' ∧ e' ≤ eMax ∧ encode64 s c e = pack s c' e') ∨
    (maxCoef < c ∧ encode64 s c e = inf64 s) := by
  unfold encode64
  split
  · obtain ⟨hlo, hhi⟩ := clampExp_range e
    exact .inl ⟨0, clampExp e, Nat.zero_le _, hlo, hhi, rfl⟩
  · cases hround : roundLoop (c.log2 + 1) c e with
    | none =>
      refine .inr ⟨Nat.lt_of_not_le fun hc => ?_, rfl⟩
      simp [roundLoop_of_le_maxCoef hc] at hround
    | some t =>
      obtain ⟨c₁, e₁⟩ := t
      have hc₁ : c₁ ≤ maxCoef := le_maxCoef_of_roundLoop (Nat.lt_succ_self _) hround
      obtain ⟨hlo, hhi⟩ := clampExp_range (truncLoop (c₁.log2 + 1) c₁ e₁).2
      exact .inl ⟨_, _, (truncLoop_le _ _ _).trans hc₁, hlo, hhi, rfl⟩

/-- R54 item 2: `Encode` is `Pack` on the format's own triples. -/
theorem encode64_of_range (s : Bool) {c : Nat} {e : Int} (hc : c ≤ maxCoef) (hlo : eMin ≤ e)
    (hhi : e ≤ eMax) : encode64 s c e = pack s c e := by
  unfold encode64
  split
  next hzero => rw [hzero, clampExp_of_range hlo hhi]
  next =>
    have htrunc : truncLoop (c.log2 + 1) c e = (c, e) := by rw [truncLoop_eq, if_neg (by omega)]
    simp only [roundLoop_of_le_maxCoef hc, htrunc, clampExp_of_range hlo hhi]

/-! ### What may leave the block -/

theorem emittedDecimal_nan64 : EmittedDecimal nan64 := .inr (.inl rfl)

theorem emittedDecimal_inf64 (s : Bool) : EmittedDecimal (inf64 s) := by
  cases s
  · exact .inr (.inr (.inl rfl))
  · exact .inr (.inr (.inr rfl))

/-- R38: `Encode` answers a packed word or an Infinity. -/
theorem emittedDecimal_encode64 (s : Bool) (c : Nat) (e : Int) :
    EmittedDecimal (encode64 s c e) := by
  rcases encode64_cases s c e with ⟨c', e', hc, hlo, hhi, h⟩ | ⟨-, h⟩ <;> rw [h]
  · exact .inl (standardFinite_pack s hc hlo hhi)
  · exact emittedDecimal_inf64 s

/-- R60: an arithmetic operation answers `NAN64` or what it does on finite operands. -/
theorem emittedDecimal_onFinite (p : Params) (a b : Word) {f : Unpacked → Unpacked → Word}
    (hf : ∀ x y, EmittedDecimal (f x y)) : EmittedDecimal (onFinite p a b f) := by
  unfold onFinite
  split
  · exact hf _ _
  · exact emittedDecimal_nan64

theorem emittedDecimal_addResult (p : Params) (a b : Word) : EmittedDecimal (addResult p a b) :=
  emittedDecimal_onFinite p a b fun _ _ => emittedDecimal_encode64 _ _ _

theorem emittedDecimal_mulResult (p : Params) (a b : Word) : EmittedDecimal (mulResult p a b) :=
  emittedDecimal_onFinite p a b fun _ _ => emittedDecimal_encode64 _ _ _

theorem emittedDecimal_divResult (p : Params) (a b : Word) : EmittedDecimal (divResult p a b) := by
  refine emittedDecimal_onFinite p a b fun x y => ?_
  unfold divFinite
  split
  · exact emittedDecimal_nan64
  · exact emittedDecimal_encode64 _ _ _

theorem emittedDecimal_fromDoubleResult (u : Word) : EmittedDecimal (fromDoubleResult u) := by
  unfold fromDoubleResult
  split_ifs
  · exact emittedDecimal_nan64
  · exact emittedDecimal_inf64 _
  · exact emittedDecimal_encode64 _ _ _
  · exact emittedDecimal_encode64 _ _ _

theorem emittedDecimal_parseText (t : List Byte) : EmittedDecimal (parseText t) := by
  simp only [parseText]
  split_ifs
  · exact emittedDecimal_nan64
  · exact emittedDecimal_inf64 _
  · exact emittedDecimal_encode64 _ _ _

/-- R38, operation by operation. -/
theorem emittedDecimal_answer (p : Params) {i : Instr} (h : producesDecimal i = true) :
    EmittedDecimal (answer p i).r := by
  cases i with
  | encode sgn coef exp => exact emittedDecimal_encode64 _ _ _
  | add a b => exact emittedDecimal_addResult p a b
  | sub a b => exact emittedDecimal_addResult p a (negate b)
  | mul a b => exact emittedDecimal_mulResult p a b
  | div a b => exact emittedDecimal_divResult p a b
  | fromDouble u => exact emittedDecimal_fromDoubleResult u
  | fromString text => exact emittedDecimal_parseText text
  | decode | toDouble | toString => contradiction

/-- Settles O17: every result is `NAN64`, an Infinity or an encoding. -/
theorem emittedDecimalsAreStandardForm : Obligations.EmittedDecimalsAreStandardForm :=
  fun i s h => ⟨answer s.params i, exec_eq_respond i s, emittedDecimal_answer s.params h⟩

end Sys2Proof.Machine
end

section
/-! ADD and SUB when the alignment drops no digit. -/

namespace Sys2Proof.Machine

open Laws

/-! ### The negated operand (R61) -/

theorem getLsbD_negate (v : Word) (i : Nat) :
    (negate v).getLsbD i = (v.getLsbD i ^^ decide (i = 63)) := by
  rw [negate, BitVec.getLsbD_xor, ← BitVec.twoPow_eq, BitVec.getLsbD_twoPow]
  by_cases h : i = 63 <;> simp [h, eq_comm]

theorem signBit_negate (v : Word) : signBit (negate v) = !signBit v := by
  rw [signBit, signBit, getLsbD_negate]
  simp

theorem slice_negate (v : Word) {hi lo : Nat} (hle : lo ≤ hi) (hhi : hi < 63) :
    slice (negate v) hi lo = slice v hi lo := by
  refine congrArg BitVec.toNat (BitVec.eq_of_getLsbD_eq fun i hi' => ?_)
  have hne : lo + i ≠ 63 := by omega
  simp [BitVec.extractLsb, getLsbD_negate, hne]

theorem classify_negate (v : Word) : classify (negate v) = classify v := by
  rw [classify, classify, slice_negate v (by decide) (by decide)]

theorem isFinite_negate (v : Word) : isFinite (negate v) = isFinite v := by
  rw [isFinite, isFinite, classify_negate]

theorem isLargeForm_negate (v : Word) : isLargeForm (negate v) = isLargeForm v := by
  simp [isLargeForm, slice_negate]

theorem largeBiased_negate (p : Params) (v : Word) :
    largeBiased p (negate v) = largeBiased p v := by
  simp [largeBiased, slice_negate]

theorem unpack_negate (p : Params) (v : Word) :
    unpack p (negate v) = { unpack p v with s := !(unpack p v).s } := by
  cases hform : isLargeForm v with
  | true =>
    have hneg : isLargeForm (negate v) = true := isLargeForm_negate v ▸ hform
    simp [unpack_of_isLargeForm p hform, unpack_of_isLargeForm p hneg, signBit_negate,
      slice_negate, largeBiased_negate]
  | false =>
    have hneg : isLargeForm (negate v) = false := isLargeForm_negate v ▸ hform
    simp [unpack_of_not_isLargeForm p hform, unpack_of_not_isLargeForm p hneg, signBit_negate,
      slice_negate]

theorem value_neg_sign (s : Bool) (c : Nat) (e : Int) :
    (⟨!s, c, e⟩ : Unpacked).value = -(⟨s, c, e⟩ : Unpacked).value := by
  cases s <;> simp [Unpacked.value]

/-! ### The exact alignment (R62) -/

/-- Exchanging the operands exchanges the results of a loop that can finish. -/
theorem alignLoop_comm (p : Params) (fuel ca cb : Nat) (ea eb : Int)
    (hfuel : (ea - eb).natAbs ≤ fuel) :
    alignLoop p fuel cb eb ca ea =
      ((alignLoop p fuel ca ea cb eb).2.1, (alignLoop p fuel ca ea cb eb).1,
        (alignLoop p fuel ca ea cb eb).2.2) := by
  induction fuel generalizing ca cb ea eb with
  | zero =>
    obtain rfl : ea = eb := by omega
    rfl
  | succ fuel ih =>
    simp only [alignLoop]
    rcases lt_trichotomy ea eb with h | rfl | h
    · simp only [h.ne, h.ne', h, h.not_gt, if_true, if_false]
      split <;> exact ih _ _ _ _ (by omega)
    · simp
    · simp only [h.ne, h.ne', h, h.not_gt, if_true, if_false]
      split <;> exact ih _ _ _ _ (by omega)

theorem align_comm (p : Params) (ca cb : Nat) (ea eb : Int) :
    align p cb eb ca ea =
      ((align p ca ea cb eb).2.1, (align p ca ea cb eb).1, (align p ca ea cb eb).2.2) := by
  have hdistance : (eb - ea).natAbs = (ea - eb).natAbs := by omega
  rw [align, align, hdistance]
  exact alignLoop_comm p _ ca cb ea eb le_rfl

/-- The operand of the larger exponent is scaled up all the way when it has room for it. -/
theorem align_scales_up (p : Params) (ca cb : Nat) (eb : Int) (d : Nat)
    (hfits : ca * 10 ^ d ≤ maxCoef) :
    align p ca (eb + d) cb eb = (ca * 10 ^ d, cb, eb) := by
  induction d generalizing ca with
  | zero => simp [align_eq]
  | succ d ih =>
    have hscale : ca * 10 ^ (d + 1) = ca * 10 * 10 ^ d := by ring
    have hturn : ca * 10 ≤ maxCoef :=
      (Nat.le_mul_of_pos_right _ (by positivity)).trans (hscale ▸ hfits)
    have hexp : eb + ((d + 1 : Nat) : Int) - 1 = eb + d := by omega
    rw [align_eq, if_neg (by omega), if_pos (by omega), if_pos hturn, hexp, hscale]
    exact ih (ca * 10) (hscale ▸ hfits)

/-- The coefficient of an operand brought down to the exponent e. -/
def Unpacked.coefAt (x : Unpacked) (e : Int) : Nat := x.c * 10 ^ (x.e - e).toNat

theorem align_eq_coefAt (p : Params) (x y : Unpacked)
    (hx : x.coefAt (min x.e y.e) ≤ maxCoef) (hy : y.coefAt (min x.e y.e) ≤ maxCoef) :
    align p x.c x.e y.c y.e =
      (x.coefAt (min x.e y.e), y.coefAt (min x.e y.e), min x.e y.e) := by
  unfold Unpacked.coefAt at *
  rcases le_total x.e y.e with h | h
  · rw [min_eq_left h] at hy ⊢
    have halign := align_scales_up p y.c x.c x.e _ hy
    rw [Int.toNat_of_nonneg (by omega), add_sub_cancel] at halign
    rw [align_comm p y.c x.c y.e x.e, halign]
    simp
  · rw [min_eq_right h] at hx ⊢
    have halign := align_scales_up p x.c y.c y.e _ hx
    rw [Int.toNat_of_nonneg (by omega), add_sub_cancel] at halign
    simpa using halign

theorem value_coefAt (x : Unpacked) {e : Int} (h : e ≤ x.e) :
    (⟨x.s, x.coefAt e, e⟩ : Unpacked).value = x.value := by
  have hexp : (10 : ℚ) ^ x.e = 10 ^ (x.e - e).toNat * 10 ^ e := by
    rw [← zpow_natCast, ← zpow_add₀ (by norm_num), Int.toNat_of_nonneg (by omega),
      sub_add_cancel]
  simp only [Unpacked.value, Unpacked.coefAt, hexp, Nat.cast_mul, Nat.cast_pow, Nat.cast_ofNat]
  ring

/-! ### The combination (R63) -/

theorem combine_snd_le (sa : Bool) (ca : Nat) (sb : Bool) (cb : Nat) :
    (combine sa ca sb cb).2 ≤ ca + cb := by
  unfold combine
  split_ifs <;> simp only <;> omega

/-- The four cases are the addition of signed coefficients. -/
theorem value_combine (sa : Bool) (ca : Nat) (sb : Bool) (cb : Nat) (e : Int) :
    (⟨(combine sa ca sb cb).1, (combine sa ca sb cb).2, e⟩ : Unpacked).value =
      (⟨sa, ca, e⟩ : Unpacked).value + (⟨sb, cb, e⟩ : Unpacked).value := by
  unfold combine
  split_ifs with hsign hgt hlt
  · simp only [Unpacked.value, hsign, Nat.cast_add]
    ring
  · obtain rfl : sb = !sa := Bool.eq_not.2 (Ne.symm hsign)
    rw [value_neg_sign]
    simp only [Unpacked.value, Nat.cast_sub hgt.le]
    ring
  · obtain rfl : sa = !sb := Bool.eq_not.2 hsign
    rw [value_neg_sign]
    simp only [Unpacked.value, Nat.cast_sub hlt.le]
    ring
  · obtain rfl : sb = !sa := Bool.eq_not.2 (Ne.symm hsign)
    obtain rfl : ca = cb := by omega
    rw [value_neg_sign, add_neg_cancel]
    simp [Unpacked.value]

/-! ### The exact sum -/

/-- ADD on operands whose coefficients at the smaller exponent add up to one that fits. -/
theorem addFinite_exact (p : Params) (x y : Unpacked)
    (hlo : eMin ≤ min x.e y.e) (hhi : min x.e y.e ≤ eMax)
    (hsum : x.coefAt (min x.e y.e) + y.coefAt (min x.e y.e) ≤ maxCoef) :
    StandardFinite (addFinite p x y) ∧ (unpack p (addFinite p x y)).value = x.value + y.value := by
  have hx := value_coefAt x (min_le_left x.e y.e)
  have hy := value_coefAt y (min_le_right x.e y.e)
  have halign := align_eq_coefAt p x y (by omega) (by omega)
  generalize min x.e y.e = e at *
  have hc := (combine_snd_le x.s (x.coefAt e) y.s (y.coefAt e)).trans hsum
  have hadd : addFinite p x y = pack (combine x.s (x.coefAt e) y.s (y.coefAt e)).1
      (combine x.s (x.coefAt e) y.s (y.coefAt e)).2 e := by
    simp only [addFinite, halign, encode64_of_range _ hc hlo hhi]
  rw [hadd, unpack_pack _ hc hlo hhi, value_combine, hx, hy]
  exact ⟨standardFinite_pack _ hc hlo hhi, rfl⟩

theorem addResult_exact (p : Params) {a b : Word} (ha : isFinite a = true) (hb : isFinite b = true)
    (hsum : (unpack p a).coefAt (min (unpack p a).e (unpack p b).e) +
      (unpack p b).coefAt (min (unpack p a).e (unpack p b).e) ≤ maxCoef) :
    StandardFinite (addResult p a b) ∧
      (unpack p (addResult p a b)).value = (unpack p a).value + (unpack p b).value := by
  obtain ⟨hloA, hhiA⟩ := unpack_e_range p ha
  obtain ⟨hloB, -⟩ := unpack_e_range p hb
  have hadd : addResult p a b = addFinite p (unpack p a) (unpack p b) := by
    simp [addResult, onFinite, ha, hb]
  rw [hadd]
  exact addFinite_exact p _ _ (le_min hloA hloB) (min_le_of_left_le hhiA) hsum

/-- Settles O33: SUB is ADD of the negated operand, which has the same coefficient and exponent. -/
theorem addAndSubAreExactWhenNothingIsDropped :
    Obligations.AddAndSubAreExactWhenNothingIsDropped := by
  intro a b s ha hb x y hx hy hsum
  subst hx hy
  obtain ⟨hadd, hsumValue⟩ := addResult_exact s.params ha hb hsum
  obtain ⟨hsub, hdiffValue⟩ := addResult_exact s.params ha ((isFinite_negate b).trans hb)
    (by rw [unpack_negate]; exact hsum)
  rw [unpack_negate, value_neg_sign, ← sub_eq_add_neg] at hdiffValue
  exact ⟨_, _, exec_eq_respond (.add a b) s, exec_eq_respond (.sub a b) s,
    hadd, hsumValue, hsub, hdiffValue⟩

end Sys2Proof.Machine
end

section
/-! `RN64` is round to nearest, ties to even: the patterns as whole units of the least subnormal,
the rounding of a fraction to a natural number, and the pattern that `RN64` picks. -/

namespace Sys2Proof.Machine

/-! ### Patterns in units of the least subnormal -/

/-- The exponent, in units of the least subnormal, of the last place of pattern n. -/
def f64UlpExp (n : Nat) : Nat := n / 2 ^ 52 - 1

/-- How many units of the least subnormal the non-negative pattern n is. -/
def f64Units (n : Nat) : Nat := (n - f64UlpExp n * 2 ^ 52) * 2 ^ f64UlpExp n

/-- Every pattern is b × 2^52 plus its significand m; only for b = 0 has m less than 53 bits. -/
theorem exists_ulpExp_significand (n : Nat) :
    ∃ b m, n = b * 2 ^ 52 + m ∧ (b = 0 ∨ 2 ^ 52 ≤ m) ∧ m < 2 ^ 53 :=
  ⟨n / 2 ^ 52 - 1, n - (n / 2 ^ 52 - 1) * 2 ^ 52, by omega, by omega, by omega⟩

/-- The significand counts units of the last place, even when it has just carried to 2^53. -/
theorem f64Units_ulpExp_significand {b m : Nat} (hb : b = 0 ∨ 2 ^ 52 ≤ m) (hm : m ≤ 2 ^ 53) :
    f64Units (b * 2 ^ 52 + m) = m * 2 ^ b := by
  unfold f64Units f64UlpExp
  rcases hm.lt_or_eq with hlt | rfl
  · rw [show (b * 2 ^ 52 + m) / 2 ^ 52 - 1 = b by omega, Nat.add_sub_cancel_left]
  · rw [show (b * 2 ^ 52 + 2 ^ 53) / 2 ^ 52 - 1 = b + 1 by omega,
      show b * 2 ^ 52 + 2 ^ 53 - (b + 1) * 2 ^ 52 = 2 ^ 52 by omega]
    ring

/-- The patterns stand in the order of the numbers they denote. -/
theorem f64Units_strictMono : StrictMono f64Units := by
  refine strictMono_nat_of_lt_succ fun n => ?_
  obtain ⟨b, m, rfl, hb, hm⟩ := exists_ulpExp_significand n
  rw [Nat.add_assoc, f64Units_ulpExp_significand hb hm.le,
    f64Units_ulpExp_significand (by omega) hm]
  exact Nat.mul_lt_mul_of_pos_right (Nat.lt_succ_self m) (by positivity)

/-- A pattern is a multiple of 2^b units, or below every significand of 53 bits at exponent b. -/
theorem f64Units_dvd_or_lt (n b : Nat) :
    (∃ k, f64Units n = k * 2 ^ b) ∨ (0 < b ∧ f64Units n < 2 ^ 52 * 2 ^ b) := by
  obtain ⟨b', m, rfl, hb, hm⟩ := exists_ulpExp_significand n
  rw [f64Units_ulpExp_significand hb hm.le]
  rcases Nat.lt_or_ge b' b with h | h
  · refine .inr ⟨by omega, ?_⟩
    calc m * 2 ^ b' < 2 ^ 53 * 2 ^ b' := Nat.mul_lt_mul_of_pos_right hm (by positivity)
      _ = 2 ^ 52 * 2 ^ (b' + 1) := by ring
      _ ≤ 2 ^ 52 * 2 ^ b := Nat.mul_le_mul_left _ (Nat.pow_le_pow_right (by decide) h)
  · refine .inl ⟨m * 2 ^ (b' - b), ?_⟩
    rw [Nat.mul_assoc, ← Nat.pow_add, Nat.sub_add_cancel h]

/-- A clear sign bit leaves a pattern below 2^63. -/
theorem toNat_lt_of_sign_clear {u : Word} (h : u.getLsbD 63 = false) : u.toNat < 2 ^ 63 := by
  have hsign := signBit_eq u
  rw [signBit, h, eq_comm, decide_eq_false_iff_not] at hsign
  omega

/-- R39: the value of a non-negative pattern. -/
theorem f64Value_eq_units {u : Word} (h : u.getLsbD 63 = false) :
    f64Value u = f64Units u.toNat * (2 : ℚ) ^ (-1074 : ℤ) := by
  have hlt : u.toNat < 2 ^ 63 := toNat_lt_of_sign_clear h
  have hexp : slice u 62 52 = u.toNat / 2 ^ 52 := by rw [slice_eq]; omega
  have hfrac : slice u 51 0 < 2 ^ 52 := slice_lt u 51 0
  have hn : u.toNat = slice u 62 52 * 2 ^ 52 + slice u 51 0 := by
    rw [hexp, slice_eq]; omega
  rw [f64Value, hn]
  cases slice u 62 52 with
  | zero => rw [f64Units_ulpExp_significand (.inl rfl) (by omega)]; simp
  | succ b =>
    have hpattern : (b + 1) * 2 ^ 52 + slice u 51 0 = b * 2 ^ 52 + (2 ^ 52 + slice u 51 0) := by
      ring
    have hpow : (2 : ℚ) ^ (((b + 1 : Nat) : ℤ) - 1075) = 2 ^ b * 2 ^ (-1074 : ℤ) := by
      rw [← zpow_natCast, ← zpow_add₀ (by norm_num)]
      congr 1
      omega
    rw [hpattern, f64Units_ulpExp_significand (.inr (by omega)) (by omega),
      if_neg (Nat.succ_ne_zero b), hpow]
    generalize (2 : ℚ) ^ (-1074 : ℤ) = unit
    push_cast
    ring

/-! ### Rounding a fraction to a natural number -/

theorem Frac.toRat_eq_div_add_mod {q : Frac} (hden : 0 < q.den) :
    q.toRat = (q.num / q.den : Nat) + (q.num % q.den : Nat) / (q.den : ℚ) := by
  have hden' : (q.den : ℚ) ≠ 0 := by positivity
  have hnum : (q.num : ℚ) = q.den * (q.num / q.den : Nat) + (q.num % q.den : Nat) := by
    exact_mod_cast (Nat.div_add_mod q.num q.den).symm
  rw [Frac.toRat, hnum]
  field_simp

/-- Half a unit is the most that rounding moves a fraction, and then it makes it even. -/
theorem Frac.roundHalfEven_error {q : Frac} (hden : 0 < q.den) :
    |(q.roundHalfEven : ℚ) - q.toRat| ≤ 1 / 2 ∧
      (|(q.roundHalfEven : ℚ) - q.toRat| = 1 / 2 → q.roundHalfEven % 2 = 0) := by
  have hden' : (0 : ℚ) < q.den := by exact_mod_cast hden
  have hmod : ((q.num % q.den : Nat) : ℚ) < q.den := by exact_mod_cast Nat.mod_lt _ hden
  have hbelowIff : 2 * (q.num % q.den) < q.den ↔ ((q.num % q.den : Nat) : ℚ) / q.den < 1 / 2 := by
    rw [div_lt_div_iff₀ hden' two_pos, one_mul, mul_comm]
    exact_mod_cast Iff.rfl
  have haboveIff : q.den < 2 * (q.num % q.den) ↔ 1 / 2 < ((q.num % q.den : Nat) : ℚ) / q.den := by
    rw [div_lt_div_iff₀ two_pos hden', one_mul, mul_comm]
    exact_mod_cast Iff.rfl
  have hnonneg : (0 : ℚ) ≤ ((q.num % q.den : Nat) : ℚ) / q.den := by positivity
  have hlt : ((q.num % q.den : Nat) : ℚ) / q.den < 1 := (div_lt_one hden').2 hmod
  simp only [Frac.toRat_eq_div_add_mod hden, Frac.roundHalfEven, hbelowIff, haboveIff]
  generalize ((q.num % q.den : Nat) : ℚ) / q.den = t at *
  generalize q.num / q.den = d
  split_ifs with hbelow habove
  · have herror : |(d : ℚ) - (d + t)| < 1 / 2 := by rw [abs_lt]; constructor <;> linarith
    exact ⟨herror.le, fun h => absurd h herror.ne⟩
  · have herror : |((d + 1 : Nat) : ℚ) - (d + t)| < 1 / 2 := by
      rw [abs_lt]; push_cast; constructor <;> linarith
    exact ⟨herror.le, fun h => absurd h herror.ne⟩
  · obtain rfl : t = 1 / 2 := by linarith
    refine ⟨?_, fun _ => by omega⟩
    rcases Nat.mod_two_eq_zero_or_one d with h | h <;> rw [h] <;> norm_num [abs_le]

/-- No natural number is nearer than the rounded one, and one as near leaves it even. -/
theorem Frac.roundHalfEven_nearest {q : Frac} (hden : 0 < q.den) (k : Nat) :
    |(q.roundHalfEven : ℚ) - q.toRat| ≤ |(k : ℚ) - q.toRat| ∧
      (|(q.roundHalfEven : ℚ) - q.toRat| = |(k : ℚ) - q.toRat| → k ≠ q.roundHalfEven →
        q.roundHalfEven % 2 = 0) := by
  obtain ⟨herror, htie⟩ := Frac.roundHalfEven_error hden
  rcases eq_or_ne k q.roundHalfEven with rfl | hne
  · exact ⟨le_rfl, fun _ h => absurd rfl h⟩
  · have hapart : (1 : ℚ) ≤ |(k : ℚ) - q.roundHalfEven| := by
      have hint : (1 : ℤ) ≤ |(k : ℤ) - q.roundHalfEven| := Int.one_le_abs (by omega)
      exact_mod_cast hint
    have htriangle := abs_sub_le (k : ℚ) q.toRat q.roundHalfEven
    rw [abs_sub_comm q.toRat] at htriangle
    exact ⟨by linarith, fun heq _ => htie (by linarith)⟩

/-- Rounding does not pass a natural number. -/
theorem Frac.le_roundHalfEven {q : Frac} (hden : 0 < q.den) {k : Nat} (h : (k : ℚ) ≤ q.toRat) :
    k ≤ q.roundHalfEven := by
  have herror := (abs_le.1 (Frac.roundHalfEven_error hden).1).1
  have hlt : (k : ℚ) < (q.roundHalfEven + 1 : Nat) := by push_cast; linarith
  exact Nat.lt_succ_iff.1 (by exact_mod_cast hlt)

theorem Frac.roundHalfEven_le {q : Frac} (hden : 0 < q.den) {k : Nat} (h : q.toRat ≤ (k : ℚ)) :
    q.roundHalfEven ≤ k := by
  have herror := (abs_le.1 (Frac.roundHalfEven_error hden).1).2
  have hlt : (q.roundHalfEven : ℚ) < (k + 1 : Nat) := by push_cast; linarith
  exact Nat.lt_succ_iff.1 (by exact_mod_cast hlt)

/-! ### The pattern `RN64` picks -/

namespace Frac

/-- The exponent of the last place for a number of least subnormals (R80). -/
def ulpExp (q : Frac) : Nat := (q.num / q.den).log2 - 52

/-- The number in units of the last place. -/
def inUlps (q : Frac) : Frac := ⟨q.num, q.den * 2 ^ q.ulpExp⟩

/-- The pattern of the rounded number. -/
def nearestPattern (q : Frac) : Nat := q.ulpExp * 2 ^ 52 + q.inUlps.roundHalfEven

/-- The value as a number of least subnormals. -/
def inSubnormals (q : Frac) : Frac := ⟨q.num * 2 ^ 1074, q.den⟩

section
variable {q : Frac} (hden : 0 < q.den)
include hden

theorem inUlps_den_pos : 0 < q.inUlps.den := Nat.mul_pos hden (by positivity)

theorem inUlps_toRat : q.inUlps.toRat * 2 ^ q.ulpExp = q.toRat := by
  have hden' : (q.den : ℚ) ≠ 0 := by positivity
  simp only [inUlps, toRat]
  push_cast
  field_simp

/-- The number of units in the last place has at most 53 bits before the point. -/
theorem inUlps_toRat_lt : q.inUlps.toRat < (2 ^ 53 : Nat) := by
  have hlog : q.num / q.den < 2 ^ 53 * 2 ^ q.ulpExp := by
    rw [← pow_add]
    exact Nat.lt_log2_self.trans_le (Nat.pow_le_pow_right (by decide) (by unfold ulpExp; omega))
  rw [toRat, div_lt_iff₀ (by exact_mod_cast inUlps_den_pos hden)]
  rw [Nat.div_lt_iff_lt_mul hden] at hlog
  have hlt : q.inUlps.num < 2 ^ 53 * q.inUlps.den := by
    show q.num < 2 ^ 53 * (q.den * 2 ^ q.ulpExp)
    linarith
  exact_mod_cast hlt

/-- It has exactly 53 above the subnormal range. -/
theorem le_inUlps_toRat (hb : q.ulpExp ≠ 0) : ((2 ^ 52 : Nat) : ℚ) ≤ q.inUlps.toRat := by
  have hlog : 2 ^ 52 * 2 ^ q.ulpExp ≤ q.num / q.den := by
    have hexp : 52 + q.ulpExp = (q.num / q.den).log2 := by unfold ulpExp at *; omega
    rw [← pow_add, hexp]
    refine Nat.log2_self_le fun hzero => hb ?_
    simp [ulpExp, hzero]
  rw [toRat, le_div_iff₀ (by exact_mod_cast inUlps_den_pos hden)]
  rw [Nat.le_div_iff_mul_le hden] at hlog
  have hle : 2 ^ 52 * q.inUlps.den ≤ q.inUlps.num := by
    show 2 ^ 52 * (q.den * 2 ^ q.ulpExp) ≤ q.num
    linarith
  exact_mod_cast hle

/-- A significand rounded up to 2^53 still counts units of the last place. -/
theorem f64Units_nearestPattern :
    f64Units q.nearestPattern = q.inUlps.roundHalfEven * 2 ^ q.ulpExp := by
  have hpos := inUlps_den_pos hden
  refine f64Units_ulpExp_significand ?_ (roundHalfEven_le hpos (inUlps_toRat_lt hden).le)
  exact or_iff_not_imp_left.2 fun hb => le_roundHalfEven hpos (le_inUlps_toRat hden hb)

/-- Distances in units of the last place and in least subnormals. -/
theorem abs_mul_ulp_sub (k : Nat) : |((k * 2 ^ q.ulpExp : Nat) : ℚ) - q.toRat| =
    |(k : ℚ) - q.inUlps.toRat| * 2 ^ q.ulpExp := by
  rw [← inUlps_toRat hden]
  push_cast
  rw [← sub_mul, abs_mul, abs_of_pos (by positivity : (0 : ℚ) < 2 ^ q.ulpExp)]

/-- No pattern is nearer than the rounded one, and another as near leaves it even: a multiple of
the unit in the last place loses to the rounded significand, and any other pattern stands below
2^52 such units, which the number does not. -/
theorem nearestPattern_nearest (n : Nat) :
    |(f64Units q.nearestPattern : ℚ) - q.toRat| ≤ |(f64Units n : ℚ) - q.toRat| ∧
      (|(f64Units q.nearestPattern : ℚ) - q.toRat| = |(f64Units n : ℚ) - q.toRat| →
        n ≠ q.nearestPattern → q.nearestPattern % 2 = 0) := by
  have hpos := inUlps_den_pos hden
  have hulp : (0 : ℚ) < 2 ^ q.ulpExp := by positivity
  have hunits := f64Units_nearestPattern hden
  rw [hunits, abs_mul_ulp_sub hden]
  rcases f64Units_dvd_or_lt n q.ulpExp with ⟨k, hk⟩ | ⟨hb, hlt⟩
  · obtain ⟨hle, htie⟩ := roundHalfEven_nearest hpos k
    rw [hk, abs_mul_ulp_sub hden]
    refine ⟨mul_le_mul_of_nonneg_right hle hulp.le, fun heq hne => ?_⟩
    have hother : k ≠ q.inUlps.roundHalfEven := by
      rintro rfl
      exact hne (f64Units_strictMono.injective (hk.trans hunits.symm))
    have heven := htie (mul_right_cancel₀ hulp.ne' heq) hother
    unfold nearestPattern
    omega
  · have hle := (roundHalfEven_nearest hpos (2 ^ 52)).1
    have hbound : ((2 ^ 52 * 2 ^ q.ulpExp : Nat) : ℚ) ≤ q.toRat := by
      rw [Nat.cast_mul, Nat.cast_pow 2 q.ulpExp, Nat.cast_ofNat, ← inUlps_toRat hden]
      exact mul_le_mul_of_nonneg_right (le_inUlps_toRat hden hb.ne') hulp.le
    have hcast : (f64Units n : ℚ) < (2 ^ 52 * 2 ^ q.ulpExp : Nat) := by exact_mod_cast hlt
    have hfar : |((2 ^ 52 * 2 ^ q.ulpExp : Nat) : ℚ) - q.toRat| < |(f64Units n : ℚ) - q.toRat| := by
      rw [abs_of_nonpos (by linarith), abs_of_nonpos (by linarith)]
      linarith
    rw [abs_mul_ulp_sub hden] at hfar
    have hstrict := (mul_le_mul_of_nonneg_right hle hulp.le).trans_lt hfar
    exact ⟨hstrict.le, fun heq => absurd heq hstrict.ne⟩

/-- Below the threshold the rounded pattern is finite: the largest finite pattern is nearer than
any above it. -/
theorem nearestPattern_lt (h : q.toRat < (2 ^ 53 - 1 / 2) * 2 ^ 2045) :
    q.nearestPattern < 2047 * 2 ^ 52 := by
  by_contra hge
  have hnear := (nearestPattern_nearest hden (2045 * 2 ^ 52 + (2 ^ 53 - 1))).1
  rw [f64Units_ulpExp_significand (by omega) (by omega)] at hnear
  have habove : f64Units (2045 * 2 ^ 52 + 2 ^ 53) ≤ f64Units q.nearestPattern :=
    f64Units_strictMono.monotone (by omega)
  rw [f64Units_ulpExp_significand (by omega) le_rfl] at habove
  have habove' : ((2 ^ 53 * 2 ^ 2045 : Nat) : ℚ) ≤ f64Units q.nearestPattern := by
    exact_mod_cast habove
  have hulp : (0 : ℚ) < 2 ^ 2045 := by positivity
  rw [Nat.cast_mul, Nat.cast_pow 2 2045, Nat.cast_ofNat] at hnear habove'
  generalize (2 : ℚ) ^ 2045 = ulp at *
  have hcloser : |((2 ^ 53 - 1 : Nat) : ℚ) * ulp - q.toRat| <
      (f64Units q.nearestPattern : ℚ) - q.toRat := by
    rw [abs_lt]
    norm_num at habove' h ⊢
    constructor <;> linarith
  exact absurd ((le_abs_self _).trans hnear) hcloser.not_ge

/-- R80: the threshold as `RN64` tests it. -/
theorem threshold_le_iff : (2 ^ 54 - 1) * 2 ^ 971 * q.den ≤ 2 * q.num ↔
    (2 ^ 53 - 1 / 2 : ℚ) * 2 ^ 971 ≤ q.toRat := by
  rw [toRat, le_div_iff₀ (by exact_mod_cast hden), ← Nat.cast_le (α := ℚ), Nat.cast_mul,
    Nat.cast_mul, Nat.cast_pow 2 971, Nat.cast_mul]
  generalize (2 : ℚ) ^ 971 = ulp
  norm_num
  constructor <;> intro h <;> linarith

end

theorem inSubnormals_den_pos {q : Frac} (hden : 0 < q.den) : 0 < q.inSubnormals.den := by
  simpa only [inSubnormals] using hden

theorem inSubnormals_toRat (q : Frac) : q.inSubnormals.toRat = q.toRat * 2 ^ 1074 := by
  rw [toRat, toRat, inSubnormals, Nat.cast_mul, Nat.cast_pow 2 1074, Nat.cast_ofNat,
    mul_div_right_comm]

end Frac

theorem rn64_of_threshold_le {q : Frac} (hden : 0 < q.den)
    (h : (2 ^ 53 - 1 / 2 : ℚ) * 2 ^ 971 ≤ q.toRat) : rn64 q = f64Inf :=
  if_pos ((Frac.threshold_le_iff hden).2 h)

theorem rn64_of_lt_threshold {q : Frac} (hden : 0 < q.den)
    (h : q.toRat < (2 ^ 53 - 1 / 2 : ℚ) * 2 ^ 971) :
    rn64 q = BitVec.ofNat 64 q.inSubnormals.nearestPattern := by
  rw [rn64, if_neg fun hle => absurd ((Frac.threshold_le_iff hden).1 hle) h.not_ge]
  simp only [Frac.nearestPattern, Frac.ulpExp, Frac.inUlps, Frac.inSubnormals]

theorem rn64_toNat {q : Frac} (hden : 0 < q.den)
    (h : q.toRat < (2 ^ 53 - 1 / 2 : ℚ) * 2 ^ 971) :
    (rn64 q).toNat = q.inSubnormals.nearestPattern ∧ (rn64 q).toNat < 2047 * 2 ^ 52 := by
  have hunits : q.inSubnormals.toRat < (2 ^ 53 - 1 / 2) * 2 ^ 2045 := by
    rw [Frac.inSubnormals_toRat, show 2045 = 971 + 1074 from rfl, pow_add, ← mul_assoc]
    exact mul_lt_mul_of_pos_right h (by positivity)
  have hlt := Frac.nearestPattern_lt (Frac.inSubnormals_den_pos hden) hunits
  have htoNat : (rn64 q).toNat = q.inSubnormals.nearestPattern := by
    rw [rn64_of_lt_threshold hden h, BitVec.toNat_ofNat, Nat.mod_eq_of_lt (by omega)]
  exact ⟨htoNat, htoNat ▸ hlt⟩

/-- R39: distances between values and in least subnormals. -/
theorem abs_f64Value_sub {u : Word} (h : u.getLsbD 63 = false) (q : Frac) :
    |f64Value u - q.toRat| =
      |(f64Units u.toNat : ℚ) - q.inSubnormals.toRat| * 2 ^ (-1074 : ℤ) := by
  have hunit : (2 : ℚ) ^ 1074 * 2 ^ (-1074 : ℤ) = 1 := by
    rw [zpow_neg]; exact mul_inv_cancel₀ (by positivity)
  have hpos : (0 : ℚ) < 2 ^ (-1074 : ℤ) := by positivity
  rw [f64Value_eq_units h, Frac.inSubnormals_toRat, ← abs_of_pos hpos, ← abs_mul, abs_of_pos hpos,
    sub_mul, mul_assoc, hunit, mul_one]

/-- Settles O44: below the threshold the word is the nearest pattern in least subnormals, and its
fraction is even when its pattern is. -/
theorem roundingToBinary64IsNearestEven : Obligations.RoundingToBinary64IsNearestEven := by
  intro q hden
  refine ⟨rn64_of_threshold_le hden, fun h => ?_⟩
  obtain ⟨hpattern, hfinite⟩ := rn64_toNat hden h
  have hsign : (rn64 q).getLsbD 63 = false := by
    have hbit := signBit_eq (rn64 q)
    rwa [decide_eq_false (by omega)] at hbit
  refine ⟨by rw [slice_eq]; omega, hsign, fun u _ hu => ?_⟩
  obtain ⟨hle, htie⟩ := Frac.nearestPattern_nearest (Frac.inSubnormals_den_pos hden) u.toNat
  have hpos : (0 : ℚ) < 2 ^ (-1074 : ℤ) := by positivity
  rw [abs_f64Value_sub hsign, abs_f64Value_sub hu, hpattern]
  refine ⟨mul_le_mul_of_nonneg_right hle hpos.le, fun heq hne => ?_⟩
  have heven := htie (mul_right_cancel₀ hpos.ne' heq) fun h =>
    hne (BitVec.eq_of_toNat_eq (h.trans hpattern.symm))
  rw [slice_eq, hpattern]
  omega

end Sys2Proof.Machine
end
